-- ==== Sys2Proof/Word.lean ====
section
/-! DEFINITION. The two data widths of the hardware (`00_scope.md` R5): the 8-bit byte and the 32-bit word.
Arithmetic on `Word` is BitVec arithmetic, so every sum and difference is taken modulo 2^32 (R6, R94). -/

namespace Sys2Proof

/-- A u8 (R5, R6). -/
abbrev Byte := BitVec 8

/-- A u32: a general register, the program counter, an address, an immediate (R5, R6). -/
abbrev Word := BitVec 32

end Sys2Proof
end

