-- ==== Sys2Proof/Machine/Flags.lean ====
section
/-! DEFINITION. The results of arithmetic (`42_arithmetic.md` R94). THE HARDWARE HAS NO FLAGS AND NO CONDITION CODES
(`10_state.md` R19): ADD, SUB and INC "write their destination and nothing else", so a result is all there is to compute,
and an overflow is silent. -/

namespace Sys2Proof.Machine

/-- `a +32 b` (R94, D4). -/
def add32 (a b : Word) : Word := a + b

/-- `a -32 b` (R94, D4). -/
def sub32 (a b : Word) : Word := a - b

end Sys2Proof.Machine
end

