-- ==== Sys2Proof/Syntax.lean ====
section
/-! DEFINITION. The instructions as syntax: one constructor of `Instr` per row of the opcode table (`30_encoding.md`
R58), over the register names (`00_scope.md` R8) and the ModRM descriptor (`40_operand_access.md` R71). -/

namespace Sys2Proof

/-- The eight general registers, in the order of their indices 0 to 7 (R8, R11). -/
inductive Reg where
  | eax | ecx | edx | ebx | esp | ebp | esi | edi
  deriving DecidableEq, Repr

/-- A ModRM descriptor, field for field as R71 gives it. -/
structure ModRM where
  /-- bits [7:6] of the ModRM byte -/
  mod : BitVec 2
  /-- bits [5:3]: a register index, or the sub-code of a group opcode -/
  reg : BitVec 3
  /-- bits [2:0]: a register index, or an addressing pattern -/
  rm : BitVec 3
  /-- the SIB byte: stored, never interpreted (R53) -/
  sib : Option Byte
  /-- the displacement, already extended to 32 bits (R71) -/
  disp : Option Word
  deriving DecidableEq, Repr

/-- The 17 instruction forms of R58. -/
inductive Instr where
  /-- ADD r/m32, r32 (0x01), R90 -/
  | addRm32R32 (m : ModRM)
  /-- PUSH r32 (0x50 to 0x57), R97 -/
  | pushR32 (r : Reg)
  /-- POP r32 (0x58 to 0x5F), R98 -/
  | popR32 (r : Reg)
  /-- PUSH imm32 (0x68), R99 -/
  | pushImm32 (imm : Word)
  /-- PUSH imm8 (0x6A), R100 -/
  | pushImm8 (imm : Byte)
  /-- ADD r/m32, imm8 (0x83 /0), R91 -/
  | addRm32Imm8 (m : ModRM) (imm : Byte)
  /-- SUB r/m32, imm8 (0x83 /5), R92 -/
  | subRm32Imm8 (m : ModRM) (imm : Byte)
  /-- MOV r/m32, r32 (0x89), R85 -/
  | movRm32R32 (m : ModRM)
  /-- MOV r32, r/m32 (0x8B), R86 -/
  | movR32Rm32 (m : ModRM)
  /-- MOV r32, imm32 (0xB8 to 0xBF), R87 -/
  | movR32Imm32 (r : Reg) (imm : Word)
  /-- RET (0xC3), R105 -/
  | ret
  /-- MOV r/m32, imm32 (0xC7, any `reg`), R88, R61 -/
  | movRm32Imm32 (m : ModRM) (imm : Word)
  /-- LEAVE (0xC9), R101 -/
  | leave
  /-- CALL rel32 (0xE8), R104 -/
  | callRel32 (rel : Word)
  /-- JMP rel32 (0xE9), R106 -/
  | jmpRel32 (rel : Word)
  /-- JMP rel8 (0xEB), R107 -/
  | jmpRel8 (rel : Byte)
  /-- INC r/m32 (0xFF /0), R93 -/
  | incRm32 (m : ModRM)
  deriving DecidableEq, Repr

end Sys2Proof
end

