-- ==== Sys2Proof/Decode.lean ====
section
/-! DEFINITION. The encodings of `30_encoding.md`: bit fields, byte order and sign extension, the dispatch on the first
byte, the ModRM parser of `40_operand_access.md` R70, the decoder, and after it the encoder.

There is ONE decoder, `decode`. It asks a `ByteSource` for the byte or the little-endian word at an offset from the
opcode, so the same text decodes a list of bytes (`decodeBytes`) and the machine's memory (`Machine/Fetch.lean`), and
it says at which offset a read failed, which is what the failure rules need (R70, R130). -/

namespace Sys2Proof

/-! ### Bytes and words -/

/-- The u32 whose little-endian bytes are `b0` (lowest address) to `b3` (R33, R38). -/
def wordOfBytes (b0 b1 b2 b3 : Byte) : Word := b3 ++ b2 ++ b1 ++ b0

/-- Byte `i` of a u32, byte 0 the least significant (R6, R36). -/
def byteOf (v : Word) (i : Nat) : Byte := v.extractLsb' (8 * i) 8

/-- The four bytes of a u32 in memory order (R38). -/
def bytesOf (v : Word) : List Byte := [byteOf v 0, byteOf v 1, byteOf v 2, byteOf v 3]

/-- `sext_8to32` (R6). -/
def sext8to32 (b : Byte) : Word := b.signExtend 32

/-- `zext_8to32` (R6). -/
def zext8to32 (b : Byte) : Word := b.setWidth 32

/-! ### Register numbers -/

/-- The register of index 0 to 7 (R8, R11). -/
def Reg.ofIndex (i : BitVec 3) : Reg :=
  match i.toNat with
  | 0 => .eax
  | 1 => .ecx
  | 2 => .edx
  | 3 => .ebx
  | 4 => .esp
  | 5 => .ebp
  | 6 => .esi
  | _ => .edi

/-- The index of a register (R8, R11). -/
def Reg.index : Reg → BitVec 3
  | .eax => 0
  | .ecx => 1
  | .edx => 2
  | .ebx => 3
  | .esp => 4
  | .ebp => 5
  | .esi => 6
  | .edi => 7

/-! ### The ModRM sequence -/

/-- The kinds of displacement of R54. -/
inductive DispKind where
  | absent | disp8 | disp32
  deriving DecidableEq, Repr

/-- The `mod` field of a ModRM byte (R52). -/
def modField (b : Byte) : BitVec 2 := b.extractLsb' 6 2

/-- The `reg` field of a ModRM byte (R52). -/
def regField (b : Byte) : BitVec 3 := b.extractLsb' 3 3

/-- The `rm` field of a ModRM byte (R52). -/
def rmField (b : Byte) : BitVec 3 := b.extractLsb' 0 3

/-- A SIB byte follows exactly when `mod != 3` and `rm == 4` (R53). -/
def sibFollows (mod : BitVec 2) (rm : BitVec 3) : Bool := mod != 3 && rm == 4

/-- Which displacement follows (R54). -/
def dispKind (mod : BitVec 2) (rm : BitVec 3) : DispKind :=
  if mod = 2 ∨ (mod = 0 ∧ rm = 5) then .disp32 else if mod = 1 then .disp8 else .absent

/-- The bytes of a displacement of a kind. -/
def DispKind.size : DispKind → Nat
  | .absent => 0
  | .disp8 => 1
  | .disp32 => 4

/-- `len(M)` of R55, which depends on `mod` and `rm` alone. -/
def ModRM.length (m : ModRM) : Nat :=
  1 + (if sibFollows m.mod m.rm then 1 else 0) + (dispKind m.mod m.rm).size

/-- The displacement as a u32. A descriptor the decoder builds has one wherever this is asked for (R71); in an ill-formed
descriptor an absent one counts as 0 (DESIGN CHOICE, log 28). -/
def ModRM.dispWord (m : ModRM) : Word := m.disp.getD 0

/-! ### Where the decoder reads -/

/-- Where the decoder reads an instruction's bytes: `byte k` and `word k` are `MemRead` of 1 and 4 bytes at the opcode's
address plus `k`. -/
structure ByteSource (ε : Type) where
  byte : Nat → Except ε Byte
  word : Nat → Except ε Word

/-- A list of bytes as a source; a read past its end fails. -/
def ByteSource.ofList (bs : List Byte) : ByteSource Unit where
  byte k :=
    match bs.drop k with
    | b :: _ => .ok b
    | [] => .error ()
  word k :=
    match bs.drop k with
    | b0 :: b1 :: b2 :: b3 :: _ => .ok (wordOfBytes b0 b1 b2 b3)
    | _ => .error ()

/-- The reasons a byte sequence gives no instruction. `consumed` is how far past the opcode's address `pc` has moved. -/
inductive DecodeFailure (ε : Type) where
  /-- the opcode byte cannot be read (R111) -/
  | noOpcode (e : ε)
  /-- a later byte cannot be read (R70 and the failure tables of R85 to R107) -/
  | unreadable (op : Byte) (e : ε) (consumed : Nat)
  /-- the imm8 of 0x83 cannot be read; the operand `m` is read before it (R91, D12) -/
  | imm8Unreadable (op : Byte) (m : ModRM) (e : ε) (consumed : Nat)
  /-- the first byte is not in the table (R60) -/
  | opcodeNotImplemented (op : Byte)
  /-- an undefined sub-code of 0x83 or 0xFF (R59) -/
  | subOpcodeNotImplemented (op : Byte) (reg : BitVec 3) (consumed : Nat)
  deriving DecidableEq, Repr

/-- Names the offset at which a read failed. -/
def failAt {ε α : Type} (k : Nat) (r : Except ε α) : Except (ε × Nat) α := r.mapError (·, k)

/-- The SIB byte at offset `k`, if one follows: the byte and the offset after it (R70). -/
def parseSib {ε : Type} (src : ByteSource ε) (mod : BitVec 2) (rm : BitVec 3) (k : Nat) :
    Except (ε × Nat) (Option Byte × Nat) :=
  if sibFollows mod rm then (failAt k (src.byte k)).map fun b => (some b, k + 1) else .ok (none, k)

/-- The displacement at offset `k`, extended to 32 bits, if one follows: its value and the offset after it (R70). -/
def parseDisp {ε : Type} (src : ByteSource ε) (mod : BitVec 2) (rm : BitVec 3) (k : Nat) :
    Except (ε × Nat) (Option Word × Nat) :=
  match dispKind mod rm with
  | .absent => .ok (none, k)
  | .disp8 => (failAt k (src.byte k)).map fun b => (some (sext8to32 b), k + 1)
  | .disp32 => (failAt k (src.word k)).map fun w => (some w, k + 4)

/-- `ParseModRM` (R70) at offset `k`: the descriptor and the offset after the sequence. A read that fails is reported with
the offset of the part it belongs to: past the parts already consumed, not past the one that failed. -/
def parseModRM {ε : Type} (src : ByteSource ε) (k : Nat) : Except (ε × Nat) (ModRM × Nat) := do
  let b ← failAt k (src.byte k)
  let (sib, k1) ← parseSib src (modField b) (rmField b) (k + 1)
  let (disp, k2) ← parseDisp src (modField b) (rmField b) k1
  return ({ mod := modField b, reg := regField b, rm := rmField b, sib := sib, disp := disp }, k2)

/-! ### The dispatch on the first byte -/

/-- The entries of the dispatch table of R58: the 17 instructions, with 0x83 and 0xFF still undivided (R59). -/
inductive Entry where
  | addRm32R32
  | pushR32 (r : Reg)
  | popR32 (r : Reg)
  | pushImm32
  | pushImm8
  | group83
  | movRm32R32
  | movR32Rm32
  | movR32Imm32 (r : Reg)
  | ret
  | movRm32Imm32
  | leave
  | callRel32
  | jmpRel32
  | jmpRel8
  | groupFF
  deriving DecidableEq, Repr

/-- The register-in-opcode field `opcode[2:0]` (R57). -/
def opcodeReg (op : Byte) : Reg := Reg.ofIndex (op.extractLsb' 0 3)

/-- The dispatch table of R58; `none` for the 219 unmapped values of R60. The three rows with a register in the opcode are
told by `opcode[7:3]`, the rest by the whole byte. -/
def dispatch (op : Byte) : Option Entry :=
  if op = 0x01 then some .addRm32R32
  else if op.extractLsb' 3 5 = 0b01010 then some (.pushR32 (opcodeReg op))
  else if op.extractLsb' 3 5 = 0b01011 then some (.popR32 (opcodeReg op))
  else if op = 0x68 then some .pushImm32
  else if op = 0x6A then some .pushImm8
  else if op = 0x83 then some .group83
  else if op = 0x89 then some .movRm32R32
  else if op = 0x8B then some .movR32Rm32
  else if op.extractLsb' 3 5 = 0b10111 then some (.movR32Imm32 (opcodeReg op))
  else if op = 0xC3 then some .ret
  else if op = 0xC7 then some .movRm32Imm32
  else if op = 0xC9 then some .leave
  else if op = 0xE8 then some .callRel32
  else if op = 0xE9 then some .jmpRel32
  else if op = 0xEB then some .jmpRel8
  else if op = 0xFF then some .groupFF
  else none

/-! ### The decoder -/

/-- The imm8 or rel8 of a form without ModRM: the byte after the opcode. `pc` stays at the opcode until the instruction's
last action (R16), so a failed read has consumed nothing. -/
def operandByte {ε : Type} (src : ByteSource ε) (op : Byte) : Except (DecodeFailure ε) Byte :=
  (src.byte 1).mapError (.unreadable op · 0)

/-- The imm32 or rel32 of a form without ModRM. -/
def operandWord {ε : Type} (src : ByteSource ε) (op : Byte) : Except (DecodeFailure ε) Word :=
  (src.word 1).mapError (.unreadable op · 0)

/-- The ModRM sequence after the opcode, and the offset after it. -/
def operandModRM {ε : Type} (src : ByteSource ε) (op : Byte) : Except (DecodeFailure ε) (ModRM × Nat) :=
  (parseModRM src 1).mapError fun f => .unreadable op f.1 f.2

/-- The group 0x83 (R59, R91, R92): the sub-code is examined after the whole ModRM sequence and before the imm8. -/
def decodeGroup83 {ε : Type} (src : ByteSource ε) (op : Byte) : Except (DecodeFailure ε) Instr := do
  let (m, k) ← operandModRM src op
  if m.reg = 0 then
    return .addRm32Imm8 m (← (src.byte k).mapError (.imm8Unreadable op m · k))
  else if m.reg = 5 then
    return .subRm32Imm8 m (← (src.byte k).mapError (.imm8Unreadable op m · k))
  else throw (.subOpcodeNotImplemented op m.reg k)

/-- The group 0xFF (R59, R93). -/
def decodeGroupFF {ε : Type} (src : ByteSource ε) (op : Byte) : Except (DecodeFailure ε) Instr := do
  let (m, k) ← operandModRM src op
  if m.reg = 0 then return .incRm32 m else throw (.subOpcodeNotImplemented op m.reg k)

/-- MOV r/m32, imm32 (R88): the imm32 is fetched after the ModRM sequence, and `reg` is not examined (R61). -/
def decodeMovRm32Imm32 {ε : Type} (src : ByteSource ε) (op : Byte) : Except (DecodeFailure ε) Instr := do
  let (m, k) ← operandModRM src op
  return .movRm32Imm32 m (← (src.word k).mapError (.unreadable op · k))

/-- The rest of an instruction whose first byte selects the entry. -/
def decodeEntry {ε : Type} (src : ByteSource ε) (op : Byte) : Entry → Except (DecodeFailure ε) Instr
  | .addRm32R32 => (operandModRM src op).map (.addRm32R32 ·.1)
  | .pushR32 r => .ok (.pushR32 r)
  | .popR32 r => .ok (.popR32 r)
  | .pushImm32 => (operandWord src op).map .pushImm32
  | .pushImm8 => (operandByte src op).map .pushImm8
  | .group83 => decodeGroup83 src op
  | .movRm32R32 => (operandModRM src op).map (.movRm32R32 ·.1)
  | .movR32Rm32 => (operandModRM src op).map (.movR32Rm32 ·.1)
  | .movR32Imm32 r => (operandWord src op).map (.movR32Imm32 r)
  | .ret => .ok .ret
  | .movRm32Imm32 => decodeMovRm32Imm32 src op
  | .leave => .ok .leave
  | .callRel32 => (operandWord src op).map .callRel32
  | .jmpRel32 => (operandWord src op).map .jmpRel32
  | .jmpRel8 => (operandByte src op).map .jmpRel8
  | .groupFF => decodeGroupFF src op

/-- The decoder: total on any source of bytes, refusing by name (R62, R66). -/
def decode {ε : Type} (src : ByteSource ε) : Except (DecodeFailure ε) Instr :=
  match src.byte 0 with
  | .error e => .error (.noOpcode e)
  | .ok op =>
    match dispatch op with
    | some entry => decodeEntry src op entry
    | none => .error (.opcodeNotImplemented op)

/-- The length in bytes of an instruction (R51, R62). -/
def Instr.length : Instr → Nat
  | .addRm32R32 m => 1 + m.length
  | .pushR32 _ => 1
  | .popR32 _ => 1
  | .pushImm32 _ => 5
  | .pushImm8 _ => 2
  | .addRm32Imm8 m _ => 2 + m.length
  | .subRm32Imm8 m _ => 2 + m.length
  | .movRm32R32 m => 1 + m.length
  | .movR32Rm32 m => 1 + m.length
  | .movR32Imm32 _ _ => 5
  | .ret => 1
  | .movRm32Imm32 m _ => 5 + m.length
  | .leave => 1
  | .callRel32 _ => 5
  | .jmpRel32 _ => 5
  | .jmpRel8 _ => 2
  | .incRm32 m => 1 + m.length

/-- Decoding a list of bytes: the instruction and the bytes after it. -/
def decodeBytes (bs : List Byte) : Except (DecodeFailure Unit) (Instr × List Byte) :=
  (decode (ByteSource.ofList bs)).map fun i => (i, bs.drop i.length)

/-! ### The encoder -/

/-- The opcode byte of an instruction (R58). -/
def Instr.opcode : Instr → Byte
  | .addRm32R32 _ => 0x01
  | .pushR32 r => 0x50 + r.index.setWidth 8
  | .popR32 r => 0x58 + r.index.setWidth 8
  | .pushImm32 _ => 0x68
  | .pushImm8 _ => 0x6A
  | .addRm32Imm8 _ _ => 0x83
  | .subRm32Imm8 _ _ => 0x83
  | .movRm32R32 _ => 0x89
  | .movR32Rm32 _ => 0x8B
  | .movR32Imm32 r _ => 0xB8 + r.index.setWidth 8
  | .ret => 0xC3
  | .movRm32Imm32 _ _ => 0xC7
  | .leave => 0xC9
  | .callRel32 _ => 0xE8
  | .jmpRel32 _ => 0xE9
  | .jmpRel8 _ => 0xEB
  | .incRm32 _ => 0xFF

/-- The ModRM byte (R52). -/
def ModRM.byte (m : ModRM) : Byte := m.mod ++ m.reg ++ m.rm

/-- The bytes of the displacement (R54). -/
def ModRM.dispBytes (m : ModRM) : List Byte :=
  match dispKind m.mod m.rm with
  | .absent => []
  | .disp8 => [byteOf m.dispWord 0]
  | .disp32 => bytesOf m.dispWord

/-- The ModRM sequence (R50, R55). -/
def ModRM.encode (m : ModRM) : List Byte := m.byte :: (m.sib.toList ++ m.dispBytes)

/-- The bytes of an instruction, in memory order (R50, R51). -/
def encode : Instr → List Byte
  | i@(.addRm32R32 m) => i.opcode :: m.encode
  | i@(.pushR32 _) => [i.opcode]
  | i@(.popR32 _) => [i.opcode]
  | i@(.pushImm32 imm) => i.opcode :: bytesOf imm
  | i@(.pushImm8 imm) => [i.opcode, imm]
  | i@(.addRm32Imm8 m imm) => i.opcode :: (m.encode ++ [imm])
  | i@(.subRm32Imm8 m imm) => i.opcode :: (m.encode ++ [imm])
  | i@(.movRm32R32 m) => i.opcode :: m.encode
  | i@(.movR32Rm32 m) => i.opcode :: m.encode
  | i@(.movR32Imm32 _ imm) => i.opcode :: bytesOf imm
  | i@(.ret) => [i.opcode]
  | i@(.movRm32Imm32 m imm) => i.opcode :: (m.encode ++ bytesOf imm)
  | i@(.leave) => [i.opcode]
  | i@(.callRel32 rel) => i.opcode :: bytesOf rel
  | i@(.jmpRel32 rel) => i.opcode :: bytesOf rel
  | i@(.jmpRel8 rel) => [i.opcode, rel]
  | i@(.incRm32 m) => i.opcode :: m.encode

/-! ### Words as the opcode table numbers them -/

/-- The longest byte sequence the decoder consumes (R50). -/
def maxLength : Nat := 11

/-- Byte `j` of a table word of `n` bytes. The table puts the FIRST byte in the most significant bits (the convention at the
head of `30_encoding.md`: "byte 0 (the opcode) in bits [15:8] and byte 1 in bits [7:0]"; log 29). -/
def tableByte (n w j : Nat) : Byte := BitVec.ofNat 8 (w >>> (8 * (n - 1 - j)))

/-- The bytes of a table word in memory order, followed by zeros up to the longest instruction. -/
def tableBytes (nbits w : Nat) : List Byte :=
  let n := (nbits + 7) / 8
  (List.range n).map (tableByte n w) ++ List.replicate (maxLength - n) 0

/-- The instruction the decoder reads from a table word. -/
def decodeTableWord (nbits w : Nat) : Option Instr :=
  match decode (ByteSource.ofList (tableBytes nbits w)) with
  | .ok i => some i
  | .error _ => none

end Sys2Proof
end

