-- ==== Sys2Proof/Config.lean ====
section
/-! DEFINITION. The configuration of the block (`00_scope.md` R4), "caller-supplied at creation" and constant from then
on (`10_state.md` R22). `MAX_PROGRAM_LEN`, which the spec leaves OPEN (D17), is an argument of the load operation
`Machine.State.load` and no field (log 4). -/

namespace Sys2Proof

/-- The parameters of R4. -/
structure Config where
  /-- `MEM_SIZE`: memory capacity in bytes. A count, so a `Nat`; legal from 1 to 2^32 (D3). -/
  memSize : Nat
  /-- `ENTRY_IP`: the value of `pc` at reset. -/
  entryIp : Word
  /-- `INIT_ESP`: the value of ESP at reset. -/
  initEsp : Word
  /-- `LOAD_BASE`: where the loader puts the first program byte. -/
  loadBase : Word
  /-- `HALT_SENTINEL`: the value of `pc` that ends a run normally (C5, D22). -/
  haltSentinel : Word
  deriving DecidableEq, Repr

/-- The legal range of R4: `MEM_SIZE` is 1 to 2^32; every other parameter may be any u32 (R141). -/
abbrev Config.Valid (c : Config) : Prop := 1 ≤ c.memSize ∧ c.memSize ≤ 2 ^ 32

/-- The defaults of R4, those "used by the reference tool". -/
def Config.reference : Config where
  memSize := 0x100000
  entryIp := 0x7C00
  initEsp := 0x7C00
  loadBase := 0x7C00
  haltSentinel := 0

end Sys2Proof
end

