-- ==== Sys2Proof/Machine/State.lean ====
section
/-! DEFINITION. The state of the block as plain data: the tuple of `10_state.md` R10, and beside it the configuration of
R4, which is frozen (R22; log 1). With it the five failure kinds of the block (`60_exceptions.md` R120), the reasons for
which the MODEL's step stops, and the state after reset (R28, R140). -/

namespace Sys2Proof.Machine

/-- The eight general registers (R11). -/
structure Regs where
  eax : Word
  ecx : Word
  edx : Word
  ebx : Word
  esp : Word
  ebp : Word
  esi : Word
  edi : Word
  deriving DecidableEq, Repr

/-- Memory (R25): the bytes that are not 0, by rising address. An address that is not listed reads as 0, what every byte
holds at creation (R28; log 27). -/
abbrev Memory := List Host.Cell

/-- The run state (R20). -/
inductive RunState where
  | running | haltedNormal | haltedFault
  deriving DecidableEq, Repr

/-- The five failure kinds with the values they record (R120, D16; log 18). They end a run inside the machine: the step
that raises one answers a NEXT state whose `run` is `haltedFault` (R129; log 24). -/
inductive Failure where
  /-- raised by the register port for an index outside 0 to 7; no instruction can raise it (R121) -/
  | registerOutOfRange (index : Nat)
  /-- raised by every access to memory that touches a byte outside it; the address can be 2^32, so a `Nat` (R122) -/
  | memoryOutOfRange (address : Nat)
  /-- raised when an r/m32 memory operand with `rm` = 4 is accessed (R123) -/
  | addressingNotImplemented (descriptor : ModRM)
  /-- raised by the step for a first byte outside the table (R124) -/
  | opcodeNotImplemented (byte : Byte)
  /-- raised by the groups 0x83 and 0xFF for an undefined `reg` (R125) -/
  | subOpcodeNotImplemented (opcode : Byte) (reg : BitVec 3)
  deriving DecidableEq, Repr

/-- What `fault` holds once the run has failed (R21): the failure, the address of the failing instruction's opcode byte, and
that byte if it was fetched. -/
structure FaultRecord where
  failure : Failure
  address : Word
  opcode : Option Byte
  deriving DecidableEq, Repr

/-- The whole state (R10), and the frozen configuration (R4, R22; log 1). -/
structure State where
  cfg : Config
  regs : Regs
  pc : Word
  mem : Memory
  run : RunState
  fault : Option FaultRecord
  deriving DecidableEq, Repr

/-- The reasons for which the model's step stops without a next state: only that the run is over, since "no step is defined"
from a terminal state (R115; log 23). -/
inductive Fault where
  /-- raised by `Machine.step` in a state whose run has ended normally; safe, since the spec defines no such step -/
  | haltedNormal
  /-- raised by `Machine.step` in a state whose run has ended in a failure; safe, since the spec defines no such step -/
  | haltedFault
  deriving DecidableEq, Repr

/-- The reasons for which the model gives an instruction no meaning. -/
inductive Refusal where
  /-- raised by an arm of `exec` whose instruction has no meaning yet; safe. Every instruction has one, so none is raised. -/
  | notModelled (mnemonic : String)
  deriving DecidableEq, Repr

/-- The state that creating the block with a configuration gives (R28, R140). That the seven registers other than ESP are 0
is the spec's decision D5, not its source's word (DESIGN CHOICE, log 3). -/
def State.resetWith (cfg : Config) : State where
  cfg := cfg
  regs := { eax := 0, ecx := 0, edx := 0, ebx := 0, esp := cfg.initEsp, ebp := 0, esi := 0, edi := 0 }
  pc := cfg.entryIp
  mem := []
  run := .running
  fault := none

/-- The machine right after reset with the default configuration of R4 (log 2). -/
def State.reset : State := State.resetWith Config.reference

end Sys2Proof.Machine
end

