-- ==== Sys2Proof/Machine/Ops.lean ====
section
/-! DEFINITION. The named operations over registers and memory that every meaning is made of, and the one operation that
raises a failure. They are the pseudocode primitives of `00_scope.md` R7. -/

namespace Sys2Proof.Machine

/-! ### Registers -/

/-- The value of a register. -/
def Regs.get (g : Regs) : Reg → Word
  | .eax => g.eax
  | .ecx => g.ecx
  | .edx => g.edx
  | .ebx => g.ebx
  | .esp => g.esp
  | .ebp => g.ebp
  | .esi => g.esi
  | .edi => g.edi

/-- The registers after a write. No register is hard-wired (R11). -/
def Regs.set (g : Regs) (r : Reg) (v : Word) : Regs :=
  match r with
  | .eax => { g with eax := v }
  | .ecx => { g with ecx := v }
  | .edx => { g with edx := v }
  | .ebx => { g with ebx := v }
  | .esp => { g with esp := v }
  | .ebp => { g with ebp := v }
  | .esi => { g with esi := v }
  | .edi => { g with edi := v }

/-! ### Memory as a canonical list -/

/-- What an address that is not listed reads as: memory is "zero-initialized at creation" (R25). -/
def Memory.unlisted : Byte := 0

/-- The byte at an address. -/
def Memory.read : Memory → Nat → Byte
  | [], _ => Memory.unlisted
  | (k, v) :: rest, a => if k = a then v else Memory.read rest a

/-- One entry before the rest of the list, left out where it says what an unlisted address reads as. -/
def Memory.entry (a : Nat) (v : Byte) (rest : Memory) : Memory :=
  if v = Memory.unlisted then rest else (a, v) :: rest

/-- The memory after a byte is written, in canonical form again. -/
def Memory.write : Memory → Nat → Byte → Memory
  | [], a, v => Memory.entry a v []
  | (k, w) :: rest, a, v =>
    if a < k then Memory.entry a v ((k, w) :: rest)
    else if a = k then Memory.entry a v rest
    else (k, w) :: Memory.write rest a v

/-- The canonical form: addresses strictly rising from `low` on, and no entry equal to what an unlisted address reads as. -/
def Memory.wfFrom : Nat → Memory → Bool
  | _, [] => true
  | low, (k, v) :: rest => decide (low ≤ k) && v != Memory.unlisted && Memory.wfFrom (k + 1) rest

/-- The canonical form of a memory. -/
def Memory.wf (m : Memory) : Bool := Memory.wfFrom 0 m

/-- Every listed address lies below the capacity (R25). -/
def Memory.within (size : Nat) (m : Memory) : Bool := m.all fun c => decide (c.1 < size)

/-! ### Reads -/

/-- The lowest address of an access at `a` that is outside memory, for an access that touches one (D7): `max(a, MEM_SIZE)`
(R122). -/
def firstBad (size a : Nat) : Nat := max a size

/-- `MemRead(a, 1)` (R32). -/
def State.read8 (s : State) (a : Nat) : Except Failure Byte :=
  if a < s.cfg.memSize then .ok (s.mem.read a) else .error (.memoryOutOfRange (firstBad s.cfg.memSize a))

/-- The little-endian word at an address (R33, R38). -/
def Memory.readWord (m : Memory) (a : Nat) : Word :=
  wordOfBytes (m.read a) (m.read (a + 1)) (m.read (a + 2)) (m.read (a + 3))

/-- `MemRead(a, 4)` (R33). The addresses of one access are natural numbers and do not wrap (R31, D3). -/
def State.read32 (s : State) (a : Nat) : Except Failure Word :=
  if a + 3 < s.cfg.memSize then .ok (s.mem.readWord a)
  else .error (.memoryOutOfRange (firstBad s.cfg.memSize a))

/-- The signed reading of a byte, the source's `read_i8` (R32). -/
def State.readI8 (s : State) (a : Nat) : Except Failure Int := (s.read8 a).map BitVec.toInt

/-- The signed reading of a word, the source's `read_i32` (R33). -/
def State.readI32 (s : State) (a : Nat) : Except Failure Int := (s.read32 a).map BitVec.toInt

/-! ### Handlers

A handler is the pseudocode of an instruction rule: it changes the state as it goes, and a failure stops it where it
stands with everything before it done (R113). `EStateM` is exactly that: on an error the state reached is kept. -/

/-- A piece of pseudocode that gives an `α` or raises a failure (R7). -/
abbrev Handler (α : Type) := EStateM Failure State α

/-- `raise K(info)` (R7). -/
def raise {α : Type} (k : Failure) : Handler α := fun s => .error k s

/-- A read: it changes no state, whether it succeeds or fails (R32, R33). -/
def reading {α : Type} (f : State → Except Failure α) : Handler α := fun s =>
  match f s with
  | .ok v => .ok v s
  | .error k => .error k s

/-- The register port's read, `get_register(index)` (R13). -/
def readRegister (i : Nat) : Handler Word := fun s =>
  if i < 8 then .ok (s.regs.get (Reg.ofIndex (BitVec.ofNat 3 i))) s else .error (.registerOutOfRange i) s

/-- The register port's write, `set_register(index, value)` (R13). -/
def writeRegister (i : Nat) (v : Word) : Handler Unit := fun s =>
  if i < 8 then .ok () { s with regs := s.regs.set (Reg.ofIndex (BitVec.ofNat 3 i)) v }
  else .error (.registerOutOfRange i) s

/-- `x[r]`, through the register port. -/
def getReg (r : Reg) : Handler Word := readRegister r.index.toNat

/-- `x[r] <- v`, through the register port. -/
def setReg (r : Reg) (v : Word) : Handler Unit := writeRegister r.index.toNat v

/-- `pc <- t` (R16). -/
def setPc (t : Word) : Handler Unit := fun s => .ok () { s with pc := t }

/-- `pc <- pc +32 n` (R16, D1). -/
def advance (n : Nat) : Handler Unit := fun s => .ok () { s with pc := s.pc + BitVec.ofNat 32 n }

/-- `MemRead(a, 4)` of a u32 address, as a handler's action. -/
def memRead32 (a : Word) : Handler Word := reading fun s => s.read32 a.toNat

/-- `MemWrite(a, 1, v)` (R35). -/
def memWrite8 (a : Nat) (v : Byte) : Handler Unit := fun s =>
  if a < s.cfg.memSize then .ok () { s with mem := s.mem.write a v }
  else .error (.memoryOutOfRange a) s

/-- `MemWrite(a, 4, v)`: four byte writes in ascending order, each checked by itself, with no rollback (R36). -/
def memWrite32 (a : Word) (v : Word) : Handler Unit := do
  memWrite8 a.toNat (byteOf v 0)
  memWrite8 (a.toNat + 1) (byteOf v 1)
  memWrite8 (a.toNat + 2) (byteOf v 2)
  memWrite8 (a.toNat + 3) (byteOf v 3)

/-! ### The stack primitives (`43_stack.md`) -/

/-- `Push(v)` (R95): the decrement is done first and is not undone when the write fails (D10). -/
def push (v : Word) : Handler Unit := do
  let e ← getReg .esp
  setReg .esp (e - 4)
  memWrite32 (e - 4) v

/-- `Pop()` (R96): a read that fails leaves ESP unchanged. -/
def pop : Handler Word := do
  let e ← getReg .esp
  let v ← memRead32 e
  setReg .esp (e + 4)
  return v

/-! ### Failing and ending a run -/

/-- What raising a failure does (R129): the run ends, and the record names the failure, the address of the failing
instruction and its opcode byte if it was fetched (R21). It saves nothing else and transfers control nowhere; there is no
return from it (R131). -/
def State.takeFailure (k : Failure) (a0 : Word) (op : Option Byte) (s : State) : State :=
  { s with run := .haltedFault, fault := some { failure := k, address := a0, opcode := op } }

/-- Performs an instruction's pseudocode in a state whose `pc` is at the opcode byte `op` (R110): the state it completes in,
or the state it failed in with the failure taken (R113). -/
def perform (op : Byte) (h : Handler Unit) (s : State) : Host.Outcome State Fault Refusal :=
  match h s with
  | .ok _ t => .next t
  | .error k t => .next (t.takeFailure k s.pc (some op))

/-- The halt check after a step (R114): only a step that completed can end the run normally, so not one that failed. -/
def State.haltCheck (s : State) : State :=
  if s.run = .running ∧ s.pc = s.cfg.haltSentinel then { s with run := .haltedNormal } else s

/-- The halt check applied to what an instruction answers. -/
def afterExec : Host.Outcome State Fault Refusal → Host.Outcome State Fault Refusal
  | .next s => .next s.haltCheck
  | .fault r => .fault r
  | .refused r => .refused r

/-! ### Placing bytes in memory from outside (host operations) -/

/-- Memory after bytes are written at `a`, `a + 1`, ... -/
def Memory.writeBytes (m : Memory) (a : Nat) : List Byte → Memory
  | [] => m
  | b :: bs => Memory.writeBytes (m.write a b) (a + 1) bs

/-- How many bytes of a program of `len` bytes the loader copies (R142, D21): no more than the maximum length and no more
than fits between `LOAD_BASE` and the end of memory. -/
def Config.loadCount (cfg : Config) (maxProgramLen len : Nat) : Nat :=
  min len (min maxProgramLen (cfg.memSize - cfg.loadBase.toNat))

/-- The loader's effect (R142): the state with the program in memory, and the oversize signal for the host.
`MAX_PROGRAM_LEN` has no value in the spec and is an argument (D17, log 4). -/
def State.load (maxProgramLen : Nat) (program : List Byte) (s : State) : State × Bool :=
  let n := Config.loadCount s.cfg maxProgramLen program.length
  ({ s with mem := s.mem.writeBytes s.cfg.loadBase.toNat (program.take n) }, decide (n < program.length))

/-- Memory with bytes stored where the decoder reads them: at `a`, `a +32 1`, ..., as far as these addresses exist. -/
def Memory.placeCode (m : Memory) (size : Nat) (a : Word) : List Byte → Memory
  | [] => m
  | b :: bs => Memory.placeCode (if a.toNat < size then m.write a.toNat b else m) size (a + 1) bs

end Sys2Proof.Machine
end

