-- ==== Sys2Proof/Machine/Operands.lean ====
section
/-! DEFINITION. Operand access (`40_operand_access.md`): every addressing mode of the hardware, and the r/m32 and r32
operands of a ModRM descriptor. -/

namespace Sys2Proof.Machine

/-- The register the `rm` field names. -/
def rmReg (m : ModRM) : Reg := Reg.ofIndex m.rm

/-- The register the `reg` field names (R75). -/
def regReg (m : ModRM) : Reg := Reg.ofIndex m.reg

/-- The address of a memory operand that is not an SIB form (R72, R76): `[disp32]` for `mod` 0 and `rm` 5, else the register
`rm`, plus the displacement for `mod` 1 and 2. The sum is a u32 modulo 2^32 (D2). -/
def effectiveAddress (m : ModRM) (g : Regs) : Word :=
  if m.mod = 0 then if m.rm = 5 then m.dispWord else g.get (rmReg m)
  else g.get (rmReg m) + m.dispWord

/-- `EffAddr(m)` (R72): an SIB form fails before anything is accessed (R78). -/
def effAddr (m : ModRM) : Handler Word := do
  if m.rm = 4 then raise (.addressingNotImplemented m)
  else return effectiveAddress m (← get).regs

/-- `GetRm32(m)` (R73). -/
def getRm32 (m : ModRM) : Handler Word := do
  if m.mod = 3 then getReg (rmReg m)
  else memRead32 (← effAddr m)

/-- `SetRm32(m, v)` (R74). -/
def setRm32 (m : ModRM) (v : Word) : Handler Unit := do
  if m.mod = 3 then setReg (rmReg m) v
  else memWrite32 (← effAddr m) v

/-- `GetR32(m)` (R75). -/
def getR32 (m : ModRM) : Handler Word := getReg (regReg m)

/-- `SetR32(m, v)` (R75). -/
def setR32 (m : ModRM) (v : Word) : Handler Unit := setReg (regReg m) v

/-- `pc` past the opcode byte and the ModRM sequence (R70, R85 and the other forms with ModRM): where it stands when the
first operand is accessed. -/
def passModRM (m : ModRM) : Handler Unit := advance (1 + m.length)

end Sys2Proof.Machine
end

