-- ==== Sys2Proof/Machine/Arithmetic.lean ====
section
/-! DEFINITION. The meanings of ADD, SUB and INC (`42_arithmetic.md`). Each starts with `pc` at its opcode byte. -/

namespace Sys2Proof.Machine

/-- ADD r/m32, r32 (R90). -/
def execAddRm32R32 (m : ModRM) (s : State) : Host.Outcome State Fault Refusal :=
  perform (Instr.addRm32R32 m).opcode (do
    passModRM m
    let b ← getR32 m
    let d ← getRm32 m
    setRm32 m (add32 d b)) s

/-- ADD r/m32, imm8 (R91): the operand is read before `pc` passes the imm8 (D12). -/
def execAddRm32Imm8 (m : ModRM) (imm : Byte) (s : State) : Host.Outcome State Fault Refusal :=
  perform (Instr.addRm32Imm8 m imm).opcode (do
    passModRM m
    let d ← getRm32 m
    advance 1
    setRm32 m (add32 d (sext8to32 imm))) s

/-- SUB r/m32, imm8 (R92). -/
def execSubRm32Imm8 (m : ModRM) (imm : Byte) (s : State) : Host.Outcome State Fault Refusal :=
  perform (Instr.subRm32Imm8 m imm).opcode (do
    passModRM m
    let d ← getRm32 m
    advance 1
    setRm32 m (sub32 d (sext8to32 imm))) s

/-- INC r/m32 (R93). -/
def execIncRm32 (m : ModRM) (s : State) : Host.Outcome State Fault Refusal :=
  perform (Instr.incRm32 m).opcode (do
    passModRM m
    let d ← getRm32 m
    setRm32 m (add32 d 1)) s

end Sys2Proof.Machine
end

