-- ==== Sys2Proof/Machine/ControlTransfer.lean ====
section
/-! DEFINITION. The meanings of CALL, RET and JMP (`44_control_transfer.md`). A relative target counts from the address after
the instruction (`30_encoding.md` R63); a target outside memory is no failure of the transfer. -/

namespace Sys2Proof.Machine

/-- CALL rel32 (R104). -/
def execCallRel32 (rel : Word) (s : State) : Host.Outcome State Fault Refusal :=
  perform (Instr.callRel32 rel).opcode (do
    push (s.pc + 5)
    setPc (s.pc + 5 + rel)) s

/-- RET (R105): an absolute target. -/
def execRet (s : State) : Host.Outcome State Fault Refusal :=
  perform Instr.ret.opcode (do
    let t ← pop
    setPc t) s

/-- JMP rel32 (R106). -/
def execJmpRel32 (rel : Word) (s : State) : Host.Outcome State Fault Refusal :=
  perform (Instr.jmpRel32 rel).opcode (setPc (s.pc + 5 + rel)) s

/-- JMP rel8 (R107). -/
def execJmpRel8 (rel : Byte) (s : State) : Host.Outcome State Fault Refusal :=
  perform (Instr.jmpRel8 rel).opcode (setPc (s.pc + 2 + sext8to32 rel)) s

end Sys2Proof.Machine
end

