-- ==== Sys2Proof/Machine/DataMovement.lean ====
section
/-! DEFINITION. The meanings of the MOV family (`41_data_movement.md`). Each starts with `pc` at its opcode byte. -/

namespace Sys2Proof.Machine

/-- MOV r/m32, r32 (R85). -/
def execMovRm32R32 (m : ModRM) (s : State) : Host.Outcome State Fault Refusal :=
  perform (Instr.movRm32R32 m).opcode (do
    passModRM m
    let v ← getR32 m
    setRm32 m v) s

/-- MOV r32, r/m32 (R86). -/
def execMovR32Rm32 (m : ModRM) (s : State) : Host.Outcome State Fault Refusal :=
  perform (Instr.movR32Rm32 m).opcode (do
    passModRM m
    let v ← getRm32 m
    setR32 m v) s

/-- MOV r32, imm32 (R87). -/
def execMovR32Imm32 (r : Reg) (imm : Word) (s : State) : Host.Outcome State Fault Refusal :=
  perform (Instr.movR32Imm32 r imm).opcode (do
    setReg r imm
    advance 5) s

/-- MOV r/m32, imm32 (R88): `pc` is past the immediate when the destination is accessed. -/
def execMovRm32Imm32 (m : ModRM) (imm : Word) (s : State) : Host.Outcome State Fault Refusal :=
  perform (Instr.movRm32Imm32 m imm).opcode (do
    passModRM m
    advance 4
    setRm32 m imm) s

end Sys2Proof.Machine
end

