-- ==== Sys2Proof/Machine/Stack.lean ====
section
/-! DEFINITION. The meanings of PUSH, POP and LEAVE (`43_stack.md`). `pc` stays at the opcode byte until the last action, so
it is there when a stack access fails. -/

namespace Sys2Proof.Machine

/-- PUSH r32 (R97): the register is read before ESP is changed (D20). -/
def execPushR32 (r : Reg) (s : State) : Host.Outcome State Fault Refusal :=
  perform (Instr.pushR32 r).opcode (do
    let v ← getReg r
    push v
    advance 1) s

/-- POP r32 (R98): ESP is incremented before the register is written (D20). -/
def execPopR32 (r : Reg) (s : State) : Host.Outcome State Fault Refusal :=
  perform (Instr.popR32 r).opcode (do
    let v ← pop
    setReg r v
    advance 1) s

/-- PUSH imm32 (R99). -/
def execPushImm32 (imm : Word) (s : State) : Host.Outcome State Fault Refusal :=
  perform (Instr.pushImm32 imm).opcode (do
    push imm
    advance 5) s

/-- PUSH imm8 (R100): the immediate is ZERO-extended (D19). -/
def execPushImm8 (imm : Byte) (s : State) : Host.Outcome State Fault Refusal :=
  perform (Instr.pushImm8 imm).opcode (do
    push (zext8to32 imm)
    advance 2) s

/-- LEAVE (R101): ESP is copied from EBP before the pop, and stays so if the pop fails. -/
def execLeave (s : State) : Host.Outcome State Fault Refusal :=
  perform Instr.leave.opcode (do
    let b ← getReg .ebp
    setReg .esp b
    let v ← pop
    setReg .ebp v
    advance 1) s

end Sys2Proof.Machine
end

