-- ==== Sys2Proof/Machine/Dispatch.lean ====
section
/-! DEFINITION. The dispatch of a decoded instruction to its meaning (`30_encoding.md` R58). -/

namespace Sys2Proof.Machine

def exec (i : Instr) (s : State) : Host.Outcome State Fault Refusal :=
  match i with
  | .addRm32R32 m => Sys2Proof.Machine.execAddRm32R32 m s
  | .pushR32 r => Sys2Proof.Machine.execPushR32 r s
  | .popR32 r => Sys2Proof.Machine.execPopR32 r s
  | .pushImm32 imm => Sys2Proof.Machine.execPushImm32 imm s
  | .pushImm8 imm => Sys2Proof.Machine.execPushImm8 imm s
  | .addRm32Imm8 m imm => Sys2Proof.Machine.execAddRm32Imm8 m imm s
  | .subRm32Imm8 m imm => Sys2Proof.Machine.execSubRm32Imm8 m imm s
  | .movRm32R32 m => Sys2Proof.Machine.execMovRm32R32 m s
  | .movR32Rm32 m => Sys2Proof.Machine.execMovR32Rm32 m s
  | .movR32Imm32 r imm => Sys2Proof.Machine.execMovR32Imm32 r imm s
  | .ret => Sys2Proof.Machine.execRet s
  | .movRm32Imm32 m imm => Sys2Proof.Machine.execMovRm32Imm32 m imm s
  | .leave => Sys2Proof.Machine.execLeave s
  | .callRel32 rel => Sys2Proof.Machine.execCallRel32 rel s
  | .jmpRel32 rel => Sys2Proof.Machine.execJmpRel32 rel s
  | .jmpRel8 rel => Sys2Proof.Machine.execJmpRel8 rel s
  | .incRm32 m => Sys2Proof.Machine.execIncRm32 m s

end Sys2Proof.Machine
end

