-- ==== Sys2Proof/Machine/Fetch.lean ====
section
/-! DEFINITION. Fetching the instruction at `pc` from memory (`49_execution_loop.md` R110, `20_memory.md` R47), and the state
that a failing fetch leaves (`60_exceptions.md` R130). -/

namespace Sys2Proof.Machine

/-- Memory as the decoder's source: offset `k` is the address `pc +32 k` (R16, R18; D1 for the wrap). The four bytes of one
word do not wrap (R31, D3). -/
def State.codeSource (s : State) : ByteSource Failure where
  byte k := s.read8 (s.pc + BitVec.ofNat 32 k).toNat
  word k := s.read32 (s.pc + BitVec.ofNat 32 k).toNat

/-- The instruction at `pc`, read from memory as it is now (R47), or the reason there is none. -/
def State.fetch (s : State) : Except (DecodeFailure Failure) Instr := decode s.codeSource

/-- The state with `pc` past the bytes consumed. -/
def State.consume (s : State) (n : Nat) : State := { s with pc := s.pc + BitVec.ofNat 32 n }

/-- The state that a failing fetch leaves (R111, R112, R130): `pc` past the parts consumed, the failure taken, nothing else
changed. Where the imm8 of 0x83 cannot be read, the operand is read first and its failure, if any, is the one reported
(R91, R128, D12). -/
def State.fetchFailed (s : State) : DecodeFailure Failure → State
  | .noOpcode e => s.takeFailure e s.pc none
  | .unreadable op e n => (s.consume n).takeFailure e s.pc (some op)
  | .imm8Unreadable op m e n =>
    match getRm32 m (s.consume n) with
    | .ok _ t => t.takeFailure e s.pc (some op)
    | .error k t => t.takeFailure k s.pc (some op)
  | .opcodeNotImplemented op => s.takeFailure (.opcodeNotImplemented op) s.pc (some op)
  | .subOpcodeNotImplemented op reg n =>
    (s.consume n).takeFailure (.subOpcodeNotImplemented op reg) s.pc (some op)

end Sys2Proof.Machine
end

