-- ==== Sys2Proof/Machine/Step.lean ====
section
/-! DEFINITION. One step of the execution loop (`49_execution_loop.md` R110), and the placing of an instruction where the next
step fetches. -/

namespace Sys2Proof.Machine

/-- One step (R110 to R115): fetch and decode at `pc`, perform the instruction, check for the halt sentinel. A failure, of the
fetch or of the instruction, is a next state in `haltedFault`. From a terminal state no step is defined (R115). -/
def step (s : State) : Host.Outcome State Fault Refusal :=
  match s.run with
  | .haltedNormal => .fault .haltedNormal
  | .haltedFault => .fault .haltedFault
  | .running =>
    match s.fetch with
    | .ok i => afterExec (exec i s)
    | .error f => .next (s.fetchFailed f)

/-- The state with the bytes of a table word stored at `pc`, where `step` fetches. It stands for the load of a program (R142;
log 30); only memory changes. -/
def State.withFetchWord (s : State) (nbits w : Nat) : State :=
  { s with mem := s.mem.placeCode s.cfg.memSize s.pc (tableBytes nbits w) }

end Sys2Proof.Machine
end

