-- ==== Sys2Proof/WellFormed.lean ====
section
/-! DEFINITION. The well-formed instructions: those whose fields an encoding can carry. The decoder gives no others.
Each check is a Bool, so `decide` runs on it. -/

namespace Sys2Proof

/-- The SIB byte is present exactly when `mod != 3` and `rm == 4` (`40_operand_access.md` R71, `30_encoding.md` R53). -/
def ModRM.sibOk (m : ModRM) : Bool := m.sib.isSome == sibFollows m.mod m.rm

/-- The displacement is present exactly when R54 says so, and for `mod == 1` it is a sign-extended byte (R71). -/
def ModRM.dispOk (m : ModRM) : Bool :=
  match dispKind m.mod m.rm, m.disp with
  | .absent, none => true
  | .disp8, some d => sext8to32 (byteOf d 0) == d
  | .disp32, some _ => true
  | _, _ => false

/-- A well-formed descriptor. -/
def ModRM.wf (m : ModRM) : Bool := m.sibOk && m.dispOk

/-- A well-formed instruction: its descriptor is, and the sub-code of a group opcode is the one that selects it (R59). -/
def Instr.wf : Instr → Bool
  | .addRm32R32 m => m.wf
  | .pushR32 _ => true
  | .popR32 _ => true
  | .pushImm32 _ => true
  | .pushImm8 _ => true
  | .addRm32Imm8 m _ => m.wf && m.reg == 0
  | .subRm32Imm8 m _ => m.wf && m.reg == 5
  | .movRm32R32 m => m.wf
  | .movR32Rm32 m => m.wf
  | .movR32Imm32 _ _ => true
  | .ret => true
  | .movRm32Imm32 m _ => m.wf
  | .leave => true
  | .callRel32 _ => true
  | .jmpRel32 _ => true
  | .jmpRel8 _ => true
  | .incRm32 m => m.wf && m.reg == 0

end Sys2Proof
end

