-- ==== Sys2Proof/Safety.lean ====
section
/-! DEFINITION. The terms claims use: what a run is and how it ends, what a state keeps, and the words in which a statement
says what changed between two states. -/

namespace Sys2Proof.Machine

/-! ### Runs (`49_execution_loop.md`) -/

/-- A run under fuel (R116): at most `n` steps, and no step once the run has ended. -/
def runFuel : Nat → State → State
  | 0, s => s
  | n + 1, s =>
    match step s with
    | .next t => runFuel n t
    | .fault _ => s
    | .refused _ => s

/-- The run from a state ends at the halt sentinel, "the only successful termination" (R119). -/
def EndsNormally (s : State) : Prop := ∃ n, (runFuel n s).run = .haltedNormal

/-- The run from a state ends in a failure (R119). -/
def EndsInFailure (s : State) : Prop := ∃ n, (runFuel n s).run = .haltedFault

/-- The run from a state never ends (R116). -/
def RunsForever (s : State) : Prop := ∀ n, (runFuel n s).run = .running

/-! ### The invariant of the machine -/

/-- What is true of every state of the block. -/
structure State.Inv (s : State) : Prop where
  /-- the configuration is legal (R4) -/
  cfgValid : s.cfg.Valid
  /-- memory is in canonical form -/
  memWf : s.mem.wf = true
  /-- memory lists no address from `MEM_SIZE` on (R25) -/
  memWithin : s.mem.within s.cfg.memSize = true
  /-- the fault record is there exactly when the run has failed (R21) -/
  faultIff : s.fault.isSome = true ↔ s.run = .haltedFault
  /-- a run that ended normally ended at the sentinel (R119) -/
  normalPc : s.run = .haltedNormal → s.pc = s.cfg.haltSentinel
  /-- no failure is `RegisterOutOfRange` (R121) -/
  noRegister : ∀ r, s.fault = some r → ∀ i, r.failure ≠ .registerOutOfRange i
  /-- the record lacks the opcode byte exactly when the opcode's address is outside memory (R21, R111) -/
  opcodeIff : ∀ r, s.fault = some r → (r.opcode = none ↔ s.cfg.memSize ≤ r.address.toNat)

/-! ### What changed between two states -/

/-- Every register but those listed is unchanged. -/
def SameRegsBut (s t : State) (changed : List Reg) : Prop := ∀ r, r ∉ changed → t.regs.get r = s.regs.get r

/-- Every byte of memory is unchanged. -/
def SameMem (s t : State) : Prop := ∀ a, t.mem.read a = s.mem.read a

/-- Memory holds `v` in the four bytes at `a`, little-endian, and every other byte is unchanged. -/
def StoredWord (s t : State) (a : Nat) (v : Word) : Prop :=
  (∀ i, i < 4 → t.mem.read (a + i) = byteOf v i) ∧ ∀ b, ¬(a ≤ b ∧ b < a + 4) → t.mem.read b = s.mem.read b

/-- Of the four bytes at `a`, those inside memory hold the bytes of `v`, and every other byte is unchanged (R36). -/
def StoredBelow (s t : State) (a : Nat) (v : Word) : Prop :=
  (∀ i, i < 4 → a + i < s.cfg.memSize → t.mem.read (a + i) = byteOf v i) ∧
    ∀ b, ¬(a ≤ b ∧ b < a + 4 ∧ b < s.cfg.memSize) → t.mem.read b = s.mem.read b

/-- The run state, the fault record and the configuration are unchanged: the instruction completed. -/
def SameControl (s t : State) : Prop := t.run = s.run ∧ t.fault = s.fault ∧ t.cfg = s.cfg

/-- The run has failed with `k`, recorded with the address of the instruction and the opcode byte given; the configuration is
unchanged (R129). -/
def FailedWith (s t : State) (k : Failure) (op : Option Byte) : Prop :=
  t.run = .haltedFault ∧ t.fault = some { failure := k, address := s.pc, opcode := op } ∧ t.cfg = s.cfg

/-- The four bytes at an address are inside memory. -/
abbrev InRange (s : State) (a : Nat) : Prop := a + 3 < s.cfg.memSize

/-- The bytes `bs` stand in memory from `pc` on. -/
def CodeAt (s : State) (bs : List Byte) : Prop :=
  ∀ k b, bs[k]? = some b → s.pc.toNat + k < s.cfg.memSize ∧ s.mem.read (s.pc.toNat + k) = b

/-! ### Tables of the spec -/

/-- The 219 first bytes that the table of R60 lists as unmapped. -/
abbrev Unmapped (op : Byte) : Prop :=
  op.toNat = 0x00 ∨ (0x02 ≤ op.toNat ∧ op.toNat ≤ 0x4F) ∨ (0x60 ≤ op.toNat ∧ op.toNat ≤ 0x67) ∨ op.toNat = 0x69 ∨
    (0x6B ≤ op.toNat ∧ op.toNat ≤ 0x82) ∨ (0x84 ≤ op.toNat ∧ op.toNat ≤ 0x88) ∨ op.toNat = 0x8A ∨
    (0x8C ≤ op.toNat ∧ op.toNat ≤ 0xB7) ∨ (0xC0 ≤ op.toNat ∧ op.toNat ≤ 0xC2) ∨
    (0xC4 ≤ op.toNat ∧ op.toNat ≤ 0xC6) ∨ op.toNat = 0xC8 ∨ (0xCA ≤ op.toNat ∧ op.toNat ≤ 0xE7) ∨
    op.toNat = 0xEA ∨ (0xEC ≤ op.toNat ∧ op.toNat ≤ 0xFE)

/-- The register an r/m32 destination writes: `x[rm]` if `mod` = 3, else none (R15). -/
def rmWritten (m : ModRM) : List Reg := if m.mod = 3 then [rmReg m] else []

/-- The column "registers written" of the table of R15. -/
def writtenRegs : Instr → List Reg
  | .addRm32R32 m => rmWritten m
  | .pushR32 _ => [.esp]
  | .popR32 r => [.esp, r]
  | .pushImm32 _ => [.esp]
  | .pushImm8 _ => [.esp]
  | .addRm32Imm8 m _ => rmWritten m
  | .subRm32Imm8 m _ => rmWritten m
  | .movRm32R32 m => rmWritten m
  | .movR32Rm32 m => [regReg m]
  | .movR32Imm32 r _ => [r]
  | .ret => [.esp]
  | .movRm32Imm32 m _ => rmWritten m
  | .leave => [.esp, .ebp]
  | .callRel32 _ => [.esp]
  | .jmpRel32 _ => []
  | .jmpRel8 _ => []
  | .incRm32 m => rmWritten m

/-- The address an instruction stores four bytes to, if it stores at all (the write rows of the table of R40): the memory
operand of an r/m32 destination, or the stack slot at ESP after the decrement. -/
def storeAddress (i : Instr) (s : State) : Option Word :=
  let rmStore (m : ModRM) : Option Word :=
    if m.mod = 3 ∨ m.rm = 4 then none else some (effectiveAddress m s.regs)
  match i with
  | .addRm32R32 m => rmStore m
  | .pushR32 _ => some (s.regs.esp - 4)
  | .popR32 _ => none
  | .pushImm32 _ => some (s.regs.esp - 4)
  | .pushImm8 _ => some (s.regs.esp - 4)
  | .addRm32Imm8 m _ => rmStore m
  | .subRm32Imm8 m _ => rmStore m
  | .movRm32R32 m => rmStore m
  | .movR32Rm32 _ => none
  | .movR32Imm32 _ _ => none
  | .ret => none
  | .movRm32Imm32 m _ => rmStore m
  | .leave => none
  | .callRel32 _ => some (s.regs.esp - 4)
  | .jmpRel32 _ => none
  | .jmpRel8 _ => none
  | .incRm32 m => rmStore m

/-- The word an instruction stores at `storeAddress`, if it stores at all (the pseudocode of R85, R88, R90 to R93, R97, R99, R100
and R104). -/
def storedValue (i : Instr) (s : State) : Option Word :=
  let old (m : ModRM) : Word := s.mem.readWord (effectiveAddress m s.regs).toNat
  let rmStore (m : ModRM) (v : Word) : Option Word := if m.mod = 3 ∨ m.rm = 4 then none else some v
  match i with
  | .addRm32R32 m => rmStore m (old m + s.regs.get (regReg m))
  | .pushR32 r => some (s.regs.get r)
  | .popR32 _ => none
  | .pushImm32 imm => some imm
  | .pushImm8 imm => some (zext8to32 imm)
  | .addRm32Imm8 m imm => rmStore m (old m + sext8to32 imm)
  | .subRm32Imm8 m imm => rmStore m (old m - sext8to32 imm)
  | .movRm32R32 m => rmStore m (s.regs.get (regReg m))
  | .movR32Rm32 _ => none
  | .movR32Imm32 _ _ => none
  | .ret => none
  | .movRm32Imm32 m imm => rmStore m imm
  | .leave => none
  | .callRel32 _ => some (s.pc + 5)
  | .jmpRel32 _ => none
  | .jmpRel8 _ => none
  | .incRm32 m => rmStore m (old m + 1)

/-- The table of R17: `pc` after an instruction that completed. -/
def pcAfter (i : Instr) (s : State) : Word :=
  match i with
  | .jmpRel8 rel => s.pc + 2 + sext8to32 rel
  | .jmpRel32 rel => s.pc + 5 + rel
  | .callRel32 rel => s.pc + 5 + rel
  | .ret => s.mem.readWord s.regs.esp.toNat
  | i => s.pc + BitVec.ofNat 32 i.length

end Sys2Proof.Machine
end

