-- ==== Sys2Proof/Certificates/Slice0/Obligations.lean ====
section
/-! DEFINITION. The statements about the model, from the numbered rules of the spec. A statement that rests on a decision of
the spec (`92_eei_decisions.md`) names it, with its log entry; such a clause is the spec's choice, not its source's word.
In all of them `pc` after an instruction is taken modulo 2^32 (D1, log 5), and so is the address of a memory operand (D2, log 6). -/

open Sys2Proof Sys2Proof.Machine

/-! ### Encoding (`30_encoding.md`) -/

/-- Words written out from R58 and R52: `89 E5` is MOV EBP, ESP; `83 EC 10` is SUB ESP, 16; `C7 45 FC 07 00 00 00` is
MOV [EBP-4], 7; `E8 05 00 00 00` is CALL +5; `55` is PUSH EBP; `8B 1D 00 80 00 00` is MOV EBX, [0x8000]. -/
def Obligations.WrittenEncodingsDecode : Prop :=
  decodeBytes [0x89, 0xE5] = .ok (.movRm32R32 { mod := 3, reg := 4, rm := 5, sib := none, disp := none }, []) ∧
  decodeBytes [0x83, 0xEC, 0x10] =
    .ok (.subRm32Imm8 { mod := 3, reg := 5, rm := 4, sib := none, disp := none } 0x10, []) ∧
  decodeBytes [0xC7, 0x45, 0xFC, 0x07, 0x00, 0x00, 0x00] =
    .ok (.movRm32Imm32 { mod := 1, reg := 0, rm := 5, sib := none, disp := some 0xFFFFFFFC } 7, []) ∧
  decodeBytes [0xE8, 0x05, 0x00, 0x00, 0x00] = .ok (.callRel32 5, []) ∧
  decodeBytes [0x55] = .ok (.pushR32 .ebp, []) ∧
  decodeBytes [0x8B, 0x1D, 0x00, 0x80, 0x00, 0x00] =
    .ok (.movR32Rm32 { mod := 0, reg := 3, rm := 5, sib := none, disp := some 0x8000 }, [])

/-- Decode and encode agree: for every well-formed instruction, whatever bytes follow it. -/
def Obligations.DecodeOfEncodeIsIdentity : Prop :=
  ∀ (i : Instr) (rest : List Byte), i.wf = true → decodeBytes (encode i ++ rest) = .ok (i, rest)

/-- Every word has one meaning: what decodes is well-formed, and encoding it gives back the bytes it was read from. -/
def Obligations.EncodeOfDecodeIsIdentity : Prop :=
  ∀ (bs rest : List Byte) (i : Instr), decodeBytes bs = .ok (i, rest) → i.wf = true ∧ bs = encode i ++ rest

/-- The dispatch of R58 and R60: of the 256 first bytes exactly the unmapped ones of R60 fail as such, whatever follows, and each
of the others begins an instruction when the bytes `C0 00 00 00 00` follow it. -/
def Obligations.UnmappedFirstBytesAreThoseListed : Prop :=
  ∀ (op : Byte) (rest : List Byte),
    (decode (ByteSource.ofList (op :: rest)) = .error (.opcodeNotImplemented op) ↔ Unmapped op) ∧
      (¬Unmapped op → ∃ i, decode (ByteSource.ofList (op :: 0xC0 :: 0 :: 0 :: 0 :: 0 :: rest)) = .ok i)

/-- The ModRM sequence (R52, R53, R54): the three fields are the bits the rule names; a SIB byte is taken exactly when `mod`
is not 3 and `rm` is 4, whatever it holds; then a disp32 or a disp8 or none, by `mod` and `rm` alone. -/
def Obligations.ModRMSequenceIsParsedAsStated : Prop :=
  ∀ (b b1 b2 b3 b4 b5 : Byte) (rest : List Byte),
    ∃ m n, parseModRM (ByteSource.ofList (b :: b1 :: b2 :: b3 :: b4 :: b5 :: rest)) 0 = .ok (m, n) ∧
      m.mod.toNat = b.toNat / 64 ∧ m.reg.toNat = b.toNat / 8 % 8 ∧ m.rm.toNat = b.toNat % 8 ∧
      (m.mod ≠ 3 ∧ m.rm = 4 →
        m.sib = some b1 ∧
        (m.mod = 2 → m.disp = some (wordOfBytes b2 b3 b4 b5) ∧ n = 6) ∧
        (m.mod = 1 → m.disp = some (sext8to32 b2) ∧ n = 3) ∧
        (m.mod = 0 → m.disp = none ∧ n = 2)) ∧
      (m.mod = 3 ∨ m.rm ≠ 4 →
        m.sib = none ∧
        (m.mod = 2 ∨ (m.mod = 0 ∧ m.rm = 5) → m.disp = some (wordOfBytes b1 b2 b3 b4) ∧ n = 5) ∧
        (m.mod = 1 → m.disp = some (sext8to32 b1) ∧ n = 2) ∧
        (m.mod = 3 ∨ (m.mod = 0 ∧ m.rm ≠ 5) → m.disp = none ∧ n = 1))

/-! ### Memory (`20_memory.md`) -/

/-- R35 and R36: a byte write, and the 32-bit write as four byte writes in ascending order without rollback. That the addresses
of one access are natural numbers and do not wrap is the spec's decision D3 (log 7). -/
def Obligations.WritesAreByteAtATime : Prop :=
  ∀ (s : State), s.mem.wf = true →
    (∀ (a : Nat) (v : Byte), s.cfg.memSize ≤ a → memWrite8 a v s = .error (.memoryOutOfRange a) s) ∧
    (∀ (a : Nat) (v : Byte), a < s.cfg.memSize →
      ∃ t, memWrite8 a v s = .ok () t ∧ t.mem.read a = v ∧ (∀ b, b ≠ a → t.mem.read b = s.mem.read b) ∧
        t = { s with mem := t.mem }) ∧
    (∀ (a v : Word), InRange s a.toNat →
      ∃ t, memWrite32 a v s = .ok () t ∧ StoredWord s t a.toNat v ∧ t = { s with mem := t.mem }) ∧
    (∀ (a v : Word) (k : Nat), k < 4 → (∀ j, j < k → a.toNat + j < s.cfg.memSize) → s.cfg.memSize ≤ a.toNat + k →
      ∃ t, memWrite32 a v s = .error (.memoryOutOfRange (a.toNat + k)) t ∧
        (∀ j, j < k → t.mem.read (a.toNat + j) = byteOf v j) ∧
        (∀ b, ¬(a.toNat ≤ b ∧ b < a.toNat + k) → t.mem.read b = s.mem.read b) ∧
        t = { s with mem := t.mem })

/-- R37: a write read back gives the value written, for a word and for a byte, and changes only the bytes it names. -/
def Obligations.WriteThenReadRoundTrip : Prop :=
  ∀ (s : State), s.mem.wf = true →
    (∀ (a v : Word), a.toNat + 3 < s.cfg.memSize →
      ∃ t, memWrite32 a v s = .ok () t ∧ memRead32 a t = .ok v t ∧
        ∀ b, ¬(a.toNat ≤ b ∧ b ≤ a.toNat + 3) → t.mem.read b = s.mem.read b) ∧
    (∀ (a : Nat) (v : Byte), a < s.cfg.memSize →
      ∃ t, memWrite8 a v s = .ok () t ∧ t.read8 a = .ok v ∧ ∀ b, b ≠ a → t.mem.read b = s.mem.read b)

/-- R32 and R33: a read inside memory gives the byte, or the number its four bytes make little-endian; a read that touches a
byte outside fails and changes nothing. That the address recorded is the LOWEST outside is the spec's decision D7 (log 10). -/
def Obligations.ReadsAreBoundedAndLittleEndian : Prop :=
  ∀ (s : State),
    (∀ a, a < s.cfg.memSize → s.read8 a = .ok (s.mem.read a)) ∧
    (∀ a, s.cfg.memSize ≤ a → s.read8 a = .error (.memoryOutOfRange a)) ∧
    (∀ a : Word, a.toNat + 3 < s.cfg.memSize →
      ∃ v, memRead32 a s = .ok v s ∧
        v.toNat = (s.mem.read a.toNat).toNat + 2 ^ 8 * (s.mem.read (a.toNat + 1)).toNat +
          2 ^ 16 * (s.mem.read (a.toNat + 2)).toNat + 2 ^ 24 * (s.mem.read (a.toNat + 3)).toNat) ∧
    (∀ a : Word, s.cfg.memSize ≤ a.toNat + 3 →
      ∃ f, memRead32 a s = .error (.memoryOutOfRange f) s ∧ s.cfg.memSize ≤ f ∧ a.toNat ≤ f ∧ f ≤ a.toNat + 3 ∧
        ∀ g, a.toNat ≤ g → g < f → g < s.cfg.memSize)

/-! ### The register port (`10_state.md`) -/

/-- R13: the port reads without side effect, a write is read back and leaves every other register alone, an index outside 0 to
7 fails with nothing changed, and no step from machine code raises that failure. -/
def Obligations.RegisterPort : Prop :=
  (∀ (s : State) (i : Nat) (v : Word), i < 8 →
    (∃ w, readRegister i s = .ok w s) ∧
    ∃ t, writeRegister i v s = .ok () t ∧ readRegister i t = .ok v t ∧
      (∀ j, j < 8 → j ≠ i → ∀ w, readRegister j s = .ok w s → readRegister j t = .ok w t) ∧
      t = { s with regs := t.regs }) ∧
  (∀ (s : State) (i : Nat) (v : Word), 8 ≤ i →
    readRegister i s = .error (.registerOutOfRange i) s ∧ writeRegister i v s = .error (.registerOutOfRange i) s) ∧
  (∀ (s t : State) (k : Failure) (a : Word) (op : Option Byte), s.run = .running → step s = .next t →
    t.run = .haltedFault → t.fault = some { failure := k, address := a, opcode := op } → ∀ i, k ≠ .registerOutOfRange i)

/-! ### The stack primitives (`43_stack.md`) -/

/-- R96: `Pop` reads at ESP, then adds 4 modulo 2^32; the slot is not cleared; a read that fails leaves ESP unchanged. -/
def Obligations.PopReadsThenIncrements : Prop :=
  ∀ (s : State),
    (InRange s s.regs.esp.toNat →
      ∃ t, pop s = .ok (s.mem.readWord s.regs.esp.toNat) t ∧ t.regs.esp = s.regs.esp + 4 ∧
        SameRegsBut s t [.esp] ∧ t = { s with regs := t.regs }) ∧
    (¬InRange s s.regs.esp.toNat → ∃ f, pop s = .error (.memoryOutOfRange f) s)

/-- R95: `Push` subtracts 4 from ESP and writes the word there; a write that fails leaves ESP decremented (D10, log 13) and the
bytes of the slot inside memory written. The decrement wraps (D1). -/
def Obligations.PushDecrementsThenWrites : Prop :=
  ∀ (s : State) (v : Word), s.mem.wf = true →
    (InRange s (s.regs.esp - 4).toNat →
      ∃ t, push v s = .ok () t ∧ t.regs.esp = s.regs.esp - 4 ∧ SameRegsBut s t [.esp] ∧
        StoredWord s t (s.regs.esp - 4).toNat v ∧ t.pc = s.pc ∧ SameControl s t) ∧
    (¬InRange s (s.regs.esp - 4).toNat →
      ∃ f t, push v s = .error (.memoryOutOfRange f) t ∧ t.regs.esp = s.regs.esp - 4 ∧ SameRegsBut s t [.esp] ∧
        StoredBelow s t (s.regs.esp - 4).toNat v ∧ t.pc = s.pc ∧ SameControl s t)

/-- R102: push then pop gives the value back and restores ESP, and the slot holds the value. -/
def Obligations.PushThenPopRestores : Prop :=
  ∀ (s : State) (v : Word), s.mem.wf = true → (s.regs.esp - 4).toNat + 3 < s.cfg.memSize →
    ∃ t u, push v s = .ok () t ∧ pop t = .ok v u ∧ u.regs = s.regs ∧ StoredWord s u (s.regs.esp - 4).toNat v

/-! ### Effective addresses (`40_operand_access.md`) -/

/-- The table of R76: the address of each addressing form, as a number. The sum is taken modulo 2^32 by the spec's decision D2
(log 6). A form with `rm` = 4 fails before anything is accessed (R78). -/
def Obligations.EffectiveAddressForms : Prop :=
  ∀ (m : ModRM) (s : State) (d : Word), m.mod ≠ 3 →
    (m.rm = 4 → effAddr m s = .error (.addressingNotImplemented m) s) ∧
    (m.mod = 0 → m.rm ≠ 4 → m.rm ≠ 5 → effAddr m s = .ok (s.regs.get (Reg.ofIndex m.rm)) s) ∧
    (m.mod = 0 → m.rm = 5 → m.disp = some d → effAddr m s = .ok d s) ∧
    (m.mod = 1 ∨ m.mod = 2 → m.rm ≠ 4 → m.disp = some d →
      ∃ a, effAddr m s = .ok a s ∧ a.toNat = ((s.regs.get (Reg.ofIndex m.rm)).toNat + d.toNat) % 2 ^ 32)

/-! ### Data movement (`41_data_movement.md`) -/

/-- MOV between registers and of an immediate to a register completes: the result, `pc`, and that nothing else changes. For
0xC7 every value of `reg` is accepted (D13, log 16). `pc` wraps (D1, log 5). -/
def Obligations.MovToRegisterCompletes : Prop :=
  (∀ (m : ModRM) (s : State), m.mod = 3 → m.wf = true →
    ∃ t, exec (.movRm32R32 m) s = .next t ∧ t.regs.get (Reg.ofIndex m.rm) = s.regs.get (Reg.ofIndex m.reg) ∧
      SameRegsBut s t [Reg.ofIndex m.rm] ∧ t.pc = s.pc + 2 ∧ SameMem s t ∧ SameControl s t) ∧
  (∀ (m : ModRM) (s : State), m.mod = 3 → m.wf = true →
    ∃ t, exec (.movR32Rm32 m) s = .next t ∧ t.regs.get (Reg.ofIndex m.reg) = s.regs.get (Reg.ofIndex m.rm) ∧
      SameRegsBut s t [Reg.ofIndex m.reg] ∧ t.pc = s.pc + 2 ∧ SameMem s t ∧ SameControl s t) ∧
  (∀ (r : Reg) (imm : Word) (s : State),
    ∃ t, exec (.movR32Imm32 r imm) s = .next t ∧ t.regs.get r = imm ∧
      SameRegsBut s t [r] ∧ t.pc = s.pc + 5 ∧ SameMem s t ∧ SameControl s t) ∧
  (∀ (m : ModRM) (imm : Word) (s : State), m.mod = 3 → m.wf = true →
    ∃ t, exec (.movRm32Imm32 m imm) s = .next t ∧ t.regs.get (Reg.ofIndex m.rm) = imm ∧
      SameRegsBut s t [Reg.ofIndex m.rm] ∧ t.pc = s.pc + 6 ∧ SameMem s t ∧ SameControl s t)

/-- A load completes when its four bytes are inside memory; the address uses the registers before the write (R77) and
is taken modulo 2^32 (D2, log 6), as `pc` is (D1, log 5). -/
def Obligations.MovLoadCompletes : Prop :=
  ∀ (m : ModRM) (s : State), m.mod ≠ 3 → m.rm ≠ 4 → m.wf = true → InRange s (effectiveAddress m s.regs).toNat →
    ∃ t, exec (.movR32Rm32 m) s = .next t ∧
      t.regs.get (Reg.ofIndex m.reg) = s.mem.readWord (effectiveAddress m s.regs).toNat ∧
      SameRegsBut s t [Reg.ofIndex m.reg] ∧ t.pc = s.pc + BitVec.ofNat 32 (1 + m.length) ∧ SameMem s t ∧ SameControl s t

/-- A store completes when its four bytes are inside memory: exactly they change, and no register does. The address and `pc`
are taken modulo 2^32 (D2, log 6; D1, log 5). -/
def Obligations.MovStoreCompletes : Prop :=
  (∀ (m : ModRM) (s : State), s.mem.wf = true → m.mod ≠ 3 → m.rm ≠ 4 → m.wf = true →
    InRange s (effectiveAddress m s.regs).toNat →
    ∃ t, exec (.movRm32R32 m) s = .next t ∧
      StoredWord s t (effectiveAddress m s.regs).toNat (s.regs.get (Reg.ofIndex m.reg)) ∧
      SameRegsBut s t [] ∧ t.pc = s.pc + BitVec.ofNat 32 (1 + m.length) ∧ SameControl s t) ∧
  (∀ (m : ModRM) (imm : Word) (s : State), s.mem.wf = true → m.mod ≠ 3 → m.rm ≠ 4 → m.wf = true →
    InRange s (effectiveAddress m s.regs).toNat →
    ∃ t, exec (.movRm32Imm32 m imm) s = .next t ∧ StoredWord s t (effectiveAddress m s.regs).toNat imm ∧
      SameRegsBut s t [] ∧ t.pc = s.pc + BitVec.ofNat 32 (5 + m.length) ∧ SameControl s t)

/-! ### Arithmetic (`42_arithmetic.md`) -/

/-- ADD, SUB and INC of a register complete; the result is taken modulo 2^32 (D4, log 8) and nothing records an overflow. -/
def Obligations.ArithmeticOnRegisterCompletes : Prop :=
  (∀ (m : ModRM) (s : State), m.mod = 3 → m.wf = true →
    ∃ t, exec (.addRm32R32 m) s = .next t ∧
      (t.regs.get (Reg.ofIndex m.rm)).toNat =
        ((s.regs.get (Reg.ofIndex m.rm)).toNat + (s.regs.get (Reg.ofIndex m.reg)).toNat) % 2 ^ 32 ∧
      SameRegsBut s t [Reg.ofIndex m.rm] ∧ t.pc = s.pc + 2 ∧ SameMem s t ∧ SameControl s t) ∧
  (∀ (m : ModRM) (imm : Byte) (s : State), m.mod = 3 → (Instr.addRm32Imm8 m imm).wf = true →
    ∃ t, exec (.addRm32Imm8 m imm) s = .next t ∧
      (t.regs.get (Reg.ofIndex m.rm)).toNat =
        ((s.regs.get (Reg.ofIndex m.rm)).toNat + (sext8to32 imm).toNat) % 2 ^ 32 ∧
      SameRegsBut s t [Reg.ofIndex m.rm] ∧ t.pc = s.pc + 3 ∧ SameMem s t ∧ SameControl s t) ∧
  (∀ (m : ModRM) (imm : Byte) (s : State), m.mod = 3 → (Instr.subRm32Imm8 m imm).wf = true →
    ∃ t, exec (.subRm32Imm8 m imm) s = .next t ∧
      (t.regs.get (Reg.ofIndex m.rm)).toNat =
        ((s.regs.get (Reg.ofIndex m.rm)).toNat + 2 ^ 32 - (sext8to32 imm).toNat) % 2 ^ 32 ∧
      SameRegsBut s t [Reg.ofIndex m.rm] ∧ t.pc = s.pc + 3 ∧ SameMem s t ∧ SameControl s t) ∧
  (∀ (m : ModRM) (s : State), m.mod = 3 → (Instr.incRm32 m).wf = true →
    ∃ t, exec (.incRm32 m) s = .next t ∧
      (t.regs.get (Reg.ofIndex m.rm)).toNat = ((s.regs.get (Reg.ofIndex m.rm)).toNat + 1) % 2 ^ 32 ∧
      SameRegsBut s t [Reg.ofIndex m.rm] ∧ t.pc = s.pc + 2 ∧ SameMem s t ∧ SameControl s t)

/-- ADD, SUB and INC of a memory operand complete when its four bytes are inside memory: exactly they change. The result is taken
modulo 2^32 (D4, log 8), as the address is (D2, log 6) and `pc` (D1, log 5). -/
def Obligations.ArithmeticOnMemoryCompletes : Prop :=
  ∀ (m : ModRM) (s : State), s.mem.wf = true → m.mod ≠ 3 → m.rm ≠ 4 →
    InRange s (effectiveAddress m s.regs).toNat →
    (m.wf = true →
      ∃ t, exec (.addRm32R32 m) s = .next t ∧
        StoredWord s t (effectiveAddress m s.regs).toNat
          (s.mem.readWord (effectiveAddress m s.regs).toNat + s.regs.get (Reg.ofIndex m.reg)) ∧
        SameRegsBut s t [] ∧ t.pc = s.pc + BitVec.ofNat 32 (1 + m.length) ∧ SameControl s t) ∧
    (∀ imm, (Instr.addRm32Imm8 m imm).wf = true →
      ∃ t, exec (.addRm32Imm8 m imm) s = .next t ∧
        StoredWord s t (effectiveAddress m s.regs).toNat
          (s.mem.readWord (effectiveAddress m s.regs).toNat + sext8to32 imm) ∧
        SameRegsBut s t [] ∧ t.pc = s.pc + BitVec.ofNat 32 (2 + m.length) ∧ SameControl s t) ∧
    (∀ imm, (Instr.subRm32Imm8 m imm).wf = true →
      ∃ t, exec (.subRm32Imm8 m imm) s = .next t ∧
        StoredWord s t (effectiveAddress m s.regs).toNat
          (s.mem.readWord (effectiveAddress m s.regs).toNat - sext8to32 imm) ∧
        SameRegsBut s t [] ∧ t.pc = s.pc + BitVec.ofNat 32 (2 + m.length) ∧ SameControl s t) ∧
    ((Instr.incRm32 m).wf = true →
      ∃ t, exec (.incRm32 m) s = .next t ∧
        StoredWord s t (effectiveAddress m s.regs).toNat (s.mem.readWord (effectiveAddress m s.regs).toNat + 1) ∧
        SameRegsBut s t [] ∧ t.pc = s.pc + BitVec.ofNat 32 (1 + m.length) ∧ SameControl s t)

/-! ### Stack instructions (`43_stack.md`) -/

/-- The three PUSH forms complete when the slot is inside memory. PUSH ESP pushes the value before the decrement (D20, log 20);
PUSH imm8 extends by zeros (R100). -/
def Obligations.PushCompletes : Prop :=
  ∀ (s : State), s.mem.wf = true → InRange s (s.regs.esp - 4).toNat →
    (∀ r, ∃ t, exec (.pushR32 r) s = .next t ∧ t.regs.esp = s.regs.esp - 4 ∧ SameRegsBut s t [.esp] ∧
      StoredWord s t (s.regs.esp - 4).toNat (s.regs.get r) ∧ t.pc = s.pc + 1 ∧ SameControl s t) ∧
    (∀ imm, ∃ t, exec (.pushImm32 imm) s = .next t ∧ t.regs.esp = s.regs.esp - 4 ∧ SameRegsBut s t [.esp] ∧
      StoredWord s t (s.regs.esp - 4).toNat imm ∧ t.pc = s.pc + 5 ∧ SameControl s t) ∧
    (∀ imm, ∃ t, exec (.pushImm8 imm) s = .next t ∧ t.regs.esp = s.regs.esp - 4 ∧ SameRegsBut s t [.esp] ∧
      StoredWord s t (s.regs.esp - 4).toNat (BitVec.ofNat 32 imm.toNat) ∧ t.pc = s.pc + 2 ∧ SameControl s t)

/-- POP completes when the slot is inside memory; after POP ESP, ESP holds the popped value (D20, log 20). -/
def Obligations.PopCompletes : Prop :=
  ∀ (r : Reg) (s : State), InRange s s.regs.esp.toNat →
    ∃ t, exec (.popR32 r) s = .next t ∧ t.regs.get r = s.mem.readWord s.regs.esp.toNat ∧
      (r ≠ .esp → t.regs.esp = s.regs.esp + 4) ∧ SameRegsBut s t [.esp, r] ∧ t.pc = s.pc + 1 ∧ SameMem s t ∧ SameControl s t

/-- LEAVE completes when the slot at the old EBP is inside memory: ESP = old EBP + 4 and EBP = the word there (R101). -/
def Obligations.LeaveCompletes : Prop :=
  ∀ (s : State), InRange s s.regs.ebp.toNat →
    ∃ t, exec .leave s = .next t ∧ t.regs.esp = s.regs.ebp + 4 ∧ t.regs.ebp = s.mem.readWord s.regs.ebp.toNat ∧
      SameRegsBut s t [.esp, .ebp] ∧ t.pc = s.pc + 1 ∧ SameMem s t ∧ SameControl s t

/-! ### Control transfer (`44_control_transfer.md`) -/

/-- CALL completes when the slot is inside memory: the return address is pushed, `pc` is the target (R104). -/
def Obligations.CallCompletes : Prop :=
  ∀ (rel : Word) (s : State), s.mem.wf = true → InRange s (s.regs.esp - 4).toNat →
    ∃ t, exec (.callRel32 rel) s = .next t ∧ t.regs.esp = s.regs.esp - 4 ∧ SameRegsBut s t [.esp] ∧
      StoredWord s t (s.regs.esp - 4).toNat (s.pc + 5) ∧
      t.pc.toNat = (s.pc.toNat + 5 + rel.toNat) % 2 ^ 32 ∧ SameControl s t

/-- RET completes when the slot is inside memory: `pc` is the popped word, an absolute address (R105). -/
def Obligations.RetCompletes : Prop :=
  ∀ (s : State), InRange s s.regs.esp.toNat →
    ∃ t, exec .ret s = .next t ∧ t.pc = s.mem.readWord s.regs.esp.toNat ∧ t.regs.esp = s.regs.esp + 4 ∧
      SameRegsBut s t [.esp] ∧ SameMem s t ∧ SameControl s t

/-- JMP completes in every state, wherever the target lies: rel32 and the sign-extended rel8 count from the address after the
instruction (R106, R107), modulo 2^32 (D1, log 5). -/
def Obligations.JumpsComplete : Prop :=
  (∀ (rel : Word) (s : State),
    ∃ t, exec (.jmpRel32 rel) s = .next t ∧ t.pc.toNat = (s.pc.toNat + 5 + rel.toNat) % 2 ^ 32 ∧
      SameRegsBut s t [] ∧ SameMem s t ∧ SameControl s t) ∧
  (∀ (rel : Byte) (s : State),
    ∃ t, exec (.jmpRel8 rel) s = .next t ∧
      (t.pc.toNat : Int) = ((s.pc.toNat : Int) + 2 + rel.toInt) % 2 ^ 32 ∧
      SameRegsBut s t [] ∧ SameMem s t ∧ SameControl s t)

/-- R108: the callee's RET, reached with ESP as it was on entry and the slot not overwritten, returns to the byte after the CALL
and restores ESP; CALL and RET change no other register. -/
def Obligations.CallThenRetReturns : Prop :=
  ∀ (rel : Word) (s : State), s.mem.wf = true → InRange s (s.regs.esp - 4).toNat →
    ∃ t, exec (.callRel32 rel) s = .next t ∧ SameRegsBut s t [.esp] ∧ t.mem.readWord t.regs.esp.toNat = s.pc + 5 ∧
      ∀ u : State, u.cfg = s.cfg → u.regs.esp = t.regs.esp →
        (∀ i, i < 4 → u.mem.read (u.regs.esp.toNat + i) = t.mem.read (t.regs.esp.toNat + i)) →
        ∃ v, exec .ret u = .next v ∧ v.pc = s.pc + 5 ∧ v.regs.esp = s.regs.esp ∧ SameRegsBut u v [.esp] ∧ SameMem u v

/-! ### All instructions -/

/-- R17: `pc` after an instruction that completed, and after the step that runs it. -/
def Obligations.PcAfterEveryInstruction : Prop :=
  ∀ (i : Instr) (s t : State), s.run = .running →
    (exec i s = .next t → t.run = .running → t.pc = pcAfter i s) ∧
    (s.fetch = .ok i → step s = .next t → t.run ≠ .haltedFault → t.pc = pcAfter i s)

/-- The table of R15: whether it completes or fails, an instruction changes no register but those the table names. -/
def Obligations.OnlyTheListedRegistersChange : Prop :=
  ∀ (i : Instr) (s t : State), exec i s = .next t → SameRegsBut s t (writtenRegs i)

/-- R40 and R36: whether it completes or fails, an instruction changes no byte of memory but the four it stores to, and none
outside memory; a form that stores nothing changes none. -/
def Obligations.OnlyTheStoredBytesChange : Prop :=
  ∀ (i : Instr) (s t : State), s.mem.wf = true → exec i s = .next t →
    (∀ a, storeAddress i s = some a →
      ∀ b, ¬(a.toNat ≤ b ∧ b < a.toNat + 4 ∧ b < s.cfg.memSize) → t.mem.read b = s.mem.read b) ∧
    (storeAddress i s = none → SameMem s t)

/-! ### Failures (`60_exceptions.md`) -/

/-- R60, R112 and R124: a step on an unmapped first byte fails with `OpcodeNotImplemented` of it and changes nothing but `run`
and `fault`. -/
def Obligations.UnmappedOpcodeFailsUnchanged : Prop :=
  ∀ (s : State), s.run = .running → s.pc.toNat < s.cfg.memSize → Unmapped (s.mem.read s.pc.toNat) →
    ∃ t, step s = .next t ∧
      FailedWith s t (.opcodeNotImplemented (s.mem.read s.pc.toNat)) (some (s.mem.read s.pc.toNat)) ∧
      t.pc = s.pc ∧ t.regs = s.regs ∧ t.mem = s.mem

/-- R125: an undefined sub-code of 0x83 or 0xFF fails after the ModRM sequence is parsed and before the operand is touched (the
spec's decision D11, log 14); `pc` is past the sequence (D9, log 12) and nothing else has changed. -/
def Obligations.UndefinedSubOpcodeFails : Prop :=
  ∀ (s : State) (op : Byte) (bs : List Byte) (m : ModRM) (n : Nat), s.run = .running → s.cfg.Valid →
    CodeAt s (op :: bs) → parseModRM (ByteSource.ofList bs) 0 = .ok (m, n) →
    ((op = 0x83 ∧ m.reg ≠ 0 ∧ m.reg ≠ 5) ∨ (op = 0xFF ∧ m.reg ≠ 0)) →
    ∃ t, step s = .next t ∧ FailedWith s t (.subOpcodeNotImplemented op m.reg) (some op) ∧
      t.pc = s.pc + BitVec.ofNat 32 (1 + n) ∧ t.regs = s.regs ∧ t.mem = s.mem

/-- R123: a memory operand with `rm` = 4, which 24 of the 256 ModRM bytes have, fails with `AddressingNotImplemented` of its
descriptor in each of the seven instructions, after the whole ModRM sequence and, for 0xC7, the immediate (`pc` by the spec's decision D9,
log 12; the recorded fields by D16, log 18); nothing but `pc` has changed. -/
def Obligations.SibFormsFail : Prop :=
  ((List.range 256).countP fun n =>
    modField (BitVec.ofNat 8 n) != 3 && rmField (BitVec.ofNat 8 n) == 4) = 24 ∧
  ∀ (m : ModRM) (s : State) (i : Instr) (n : Nat), m.mod ≠ 3 → m.rm = 4 → i.wf = true →
    (((∃ imm, i = .addRm32Imm8 m imm ∨ i = .subRm32Imm8 m imm) ∨
        i = .addRm32R32 m ∨ i = .movRm32R32 m ∨ i = .movR32Rm32 m ∨ i = .incRm32 m) ∧ n = 1 + m.length ∨
      (∃ imm, i = .movRm32Imm32 m imm) ∧ n = 5 + m.length) →
    ∃ t, exec i s = .next t ∧ FailedWith s t (.addressingNotImplemented m) (some i.opcode) ∧
      t.pc = s.pc + BitVec.ofNat 32 n ∧ t.regs = s.regs ∧ t.mem = s.mem

/-- An r/m32 memory operand that cannot be read whole: ADD, SUB, INC and the load fail with the lowest address outside memory
(D7, log 10), `pc` past the ModRM sequence (D9, log 12), nothing else changed (R86, R90 to R93). -/
def Obligations.OperandReadOutOfRangeFails : Prop :=
  ∀ (m : ModRM) (s : State) (i : Instr), m.mod ≠ 3 → m.rm ≠ 4 → i.wf = true →
    ((∃ imm, i = .addRm32Imm8 m imm ∨ i = .subRm32Imm8 m imm) ∨
      i = .addRm32R32 m ∨ i = .movR32Rm32 m ∨ i = .incRm32 m) →
    s.cfg.memSize ≤ (effectiveAddress m s.regs).toNat + 3 →
    ∃ t, exec i s = .next t ∧
      FailedWith s t (.memoryOutOfRange (max (effectiveAddress m s.regs).toNat s.cfg.memSize)) (some i.opcode) ∧
      t.pc = s.pc + BitVec.ofNat 32 (1 + m.length) ∧ t.regs = s.regs ∧ t.mem = s.mem

/-- A store that leaves memory (R85, R88): the bytes of the destination inside memory are written, then it fails; `pc` is past
the ModRM sequence and, for 0xC7, the immediate (D9, log 12). -/
def Obligations.OperandWriteOutOfRangeFails : Prop :=
  ∀ (m : ModRM) (s : State), s.mem.wf = true → m.mod ≠ 3 → m.rm ≠ 4 → m.wf = true →
    s.cfg.memSize ≤ (effectiveAddress m s.regs).toNat + 3 →
    (∃ t, exec (.movRm32R32 m) s = .next t ∧
      FailedWith s t (.memoryOutOfRange (max (effectiveAddress m s.regs).toNat s.cfg.memSize)) (some 0x89) ∧
      t.pc = s.pc + BitVec.ofNat 32 (1 + m.length) ∧ t.regs = s.regs ∧
      StoredBelow s t (effectiveAddress m s.regs).toNat (s.regs.get (Reg.ofIndex m.reg))) ∧
    (∀ imm, ∃ t, exec (.movRm32Imm32 m imm) s = .next t ∧
      FailedWith s t (.memoryOutOfRange (max (effectiveAddress m s.regs).toNat s.cfg.memSize)) (some 0xC7) ∧
      t.pc = s.pc + BitVec.ofNat 32 (5 + m.length) ∧ t.regs = s.regs ∧
      StoredBelow s t (effectiveAddress m s.regs).toNat imm)

/-- A push that leaves memory, in PUSH and CALL: `pc` stays at the opcode (D9, log 12), ESP stays decremented (D10, log 13), the
bytes of the slot inside memory are written. -/
def Obligations.PushOutOfRangeFails : Prop :=
  ∀ (s : State) (i : Instr) (v : Word), s.mem.wf = true → s.cfg.memSize ≤ (s.regs.esp - 4).toNat + 3 →
    ((∃ r, i = .pushR32 r ∧ v = s.regs.get r) ∨ i = .pushImm32 v ∨
      (∃ imm, i = .pushImm8 imm ∧ v = BitVec.ofNat 32 imm.toNat) ∨ (∃ rel, i = .callRel32 rel ∧ v = s.pc + 5)) →
    ∃ t, exec i s = .next t ∧
      FailedWith s t (.memoryOutOfRange (max (s.regs.esp - 4).toNat s.cfg.memSize)) (some i.opcode) ∧
      t.pc = s.pc ∧ t.regs.esp = s.regs.esp - 4 ∧ SameRegsBut s t [.esp] ∧
      StoredBelow s t (s.regs.esp - 4).toNat v

/-- A pop that leaves memory: POP and RET change nothing; LEAVE has already copied EBP to ESP (R98, R101, R105; `pc` by D9, log
12). The address recorded is the lowest of the failing read that is outside memory (D7, log 10). -/
def Obligations.PopOutOfRangeFails : Prop :=
  (∀ (s : State) (i : Instr), s.cfg.memSize ≤ s.regs.esp.toNat + 3 → ((∃ r, i = .popR32 r) ∨ i = .ret) →
    ∃ t, exec i s = .next t ∧
      FailedWith s t (.memoryOutOfRange (max s.regs.esp.toNat s.cfg.memSize)) (some i.opcode) ∧
      t.pc = s.pc ∧ t.regs = s.regs ∧ t.mem = s.mem) ∧
  (∀ (s : State), s.cfg.memSize ≤ s.regs.ebp.toNat + 3 →
    ∃ t, exec .leave s = .next t ∧
      FailedWith s t (.memoryOutOfRange (max s.regs.ebp.toNat s.cfg.memSize)) (some 0xC9) ∧
      t.pc = s.pc ∧ t.regs.esp = s.regs.ebp ∧ SameRegsBut s t [.esp] ∧ t.mem = s.mem)

/-- R111, by the spec's decision D14 (log 17): a `pc` outside memory fails the opcode fetch, records no opcode byte and changes
nothing else. -/
def Obligations.FetchOutsideMemoryFails : Prop :=
  ∀ (s : State), s.run = .running → s.cfg.memSize ≤ s.pc.toNat →
    ∃ t, step s = .next t ∧ FailedWith s t (.memoryOutOfRange s.pc.toNat) none ∧
      t.pc = s.pc ∧ t.regs = s.regs ∧ t.mem = s.mem

/-- An immediate or displacement of an instruction without ModRM that does not lie in memory: nothing is changed, `pc` included
(R87, R99, R100, R104, R106, R107; D8 and D9, log 11 and log 12). The address recorded is the lowest of the failing read that is
outside memory (D7, log 10). -/
def Obligations.TruncatedImmediateFails : Prop :=
  ∀ (s : State), s.run = .running → s.pc.toNat < s.cfg.memSize →
    ((s.mem.read s.pc.toNat = 0x68 ∨ (0xB8 ≤ (s.mem.read s.pc.toNat).toNat ∧ (s.mem.read s.pc.toNat).toNat ≤ 0xBF) ∨
        s.mem.read s.pc.toNat = 0xE8 ∨ s.mem.read s.pc.toNat = 0xE9) ∧ s.cfg.memSize ≤ (s.pc + 1).toNat + 3 ∨
      (s.mem.read s.pc.toNat = 0x6A ∨ s.mem.read s.pc.toNat = 0xEB) ∧ s.cfg.memSize ≤ (s.pc + 1).toNat) →
    ∃ t, step s = .next t ∧
      FailedWith s t (.memoryOutOfRange (max (s.pc + 1).toNat s.cfg.memSize)) (some (s.mem.read s.pc.toNat)) ∧
      t.pc = s.pc ∧ t.regs = s.regs ∧ t.mem = s.mem

/-- A ModRM, SIB or displacement byte that does not lie in memory: `pc` is past the parts consumed and not past the one that
failed (R70; D9, log 12), nothing else changed. The address recorded is the lowest of the failing read that is outside memory
(D7, log 10). -/
def Obligations.TruncatedModRMFails : Prop :=
  ∀ (s : State) (op : Byte), s.run = .running → s.pc.toNat < s.cfg.memSize → s.mem.read s.pc.toNat = op →
    (op = 0x01 ∨ op = 0x83 ∨ op = 0x89 ∨ op = 0x8B ∨ op = 0xC7 ∨ op = 0xFF) →
    (s.cfg.memSize ≤ (s.pc + 1).toNat →
      ∃ t, step s = .next t ∧ FailedWith s t (.memoryOutOfRange (s.pc + 1).toNat) (some op) ∧
        t.pc = s.pc + 1 ∧ t.regs = s.regs ∧ t.mem = s.mem) ∧
    (∀ b, (s.pc + 1).toNat < s.cfg.memSize → s.mem.read (s.pc + 1).toNat = b →
      (sibFollows (modField b) (rmField b) = true → s.cfg.memSize ≤ (s.pc + 2).toNat →
        ∃ t, step s = .next t ∧ FailedWith s t (.memoryOutOfRange (s.pc + 2).toNat) (some op) ∧
          t.pc = s.pc + 2 ∧ t.regs = s.regs ∧ t.mem = s.mem) ∧
      (∀ n : Nat, (sibFollows (modField b) (rmField b) = true ∧ (s.pc + 2).toNat < s.cfg.memSize ∧ n = 3 ∨
          sibFollows (modField b) (rmField b) = false ∧ n = 2) →
        (dispKind (modField b) (rmField b) = .disp8 ∧ s.cfg.memSize ≤ (s.pc + BitVec.ofNat 32 n).toNat ∨
          dispKind (modField b) (rmField b) = .disp32 ∧ s.cfg.memSize ≤ (s.pc + BitVec.ofNat 32 n).toNat + 3) →
        ∃ t, step s = .next t ∧
          FailedWith s t (.memoryOutOfRange (max (s.pc + BitVec.ofNat 32 n).toNat s.cfg.memSize)) (some op) ∧
          t.pc = s.pc + BitVec.ofNat 32 n ∧ t.regs = s.regs ∧ t.mem = s.mem))

/-- The immediate after a ModRM sequence that does not lie in memory. For 0x83 the operand is read first, so its failure is the
one reported (D12, log 15); for 0xC7 the immediate is fetched before the destination is resolved, so an SIB form too reports the
immediate (R88, R128). `pc` is past the ModRM sequence (D9, log 12), nothing else changed. The address recorded, of the operand
read and of the cut imm32, is the lowest of the failing read that is outside memory (D7, log 10). -/
def Obligations.TruncatedImmediateAfterModRMFails : Prop :=
  ∀ (s : State) (op : Byte) (bs : List Byte) (m : ModRM) (n : Nat), s.run = .running → s.cfg.Valid →
    CodeAt s (op :: bs) → parseModRM (ByteSource.ofList bs) 0 = .ok (m, n) →
    (op = 0x83 → m.reg = 0 ∨ m.reg = 5 → s.cfg.memSize ≤ (s.pc + BitVec.ofNat 32 (1 + n)).toNat →
      ∃ t, step s = .next t ∧ t.pc = s.pc + BitVec.ofNat 32 (1 + n) ∧ t.regs = s.regs ∧ t.mem = s.mem ∧
        (m.mod ≠ 3 ∧ m.rm = 4 → FailedWith s t (.addressingNotImplemented m) (some op)) ∧
        (m.mod ≠ 3 ∧ m.rm ≠ 4 ∧ s.cfg.memSize ≤ (effectiveAddress m s.regs).toNat + 3 →
          FailedWith s t (.memoryOutOfRange (max (effectiveAddress m s.regs).toNat s.cfg.memSize)) (some op)) ∧
        (m.mod = 3 ∨ (m.rm ≠ 4 ∧ InRange s (effectiveAddress m s.regs).toNat) →
          FailedWith s t (.memoryOutOfRange (s.pc + BitVec.ofNat 32 (1 + n)).toNat) (some op))) ∧
    (op = 0xC7 → s.cfg.memSize ≤ (s.pc + BitVec.ofNat 32 (1 + n)).toNat + 3 →
      ∃ t, step s = .next t ∧
        FailedWith s t (.memoryOutOfRange (max (s.pc + BitVec.ofNat 32 (1 + n)).toNat s.cfg.memSize)) (some op) ∧
        t.pc = s.pc + BitVec.ofNat 32 (1 + n) ∧ t.regs = s.regs ∧ t.mem = s.mem)

/-- R21 and R129: a step that fails records the failure, the address of the failing instruction, and its opcode byte exactly if
it lies in memory. -/
def Obligations.FailingStepRecordsItsInstruction : Prop :=
  ∀ (s t : State), s.run = .running → step s = .next t → t.run = .haltedFault →
    ∃ k, t.fault = some
      { failure := k, address := s.pc,
        opcode := if s.pc.toNat < s.cfg.memSize then some (s.mem.read s.pc.toNat) else none }

/-! ### The execution loop (`49_execution_loop.md`) -/

/-- A step runs the decoded instruction: when the bytes at `pc` decode to `i`, the step is `exec i` followed by the halt check,
which ends the run normally when the instruction completed with `pc` at the sentinel and changes nothing else. -/
def Obligations.StepRunsDecodedInstruction : Prop :=
  ∀ (s : State) (bs rest : List Byte) (i : Instr), s.run = .running → s.cfg.Valid → CodeAt s bs →
    decodeBytes bs = .ok (i, rest) →
    ∃ t, exec i s = .next t ∧
      step s = .next (if t.run = .running ∧ t.pc = s.cfg.haltSentinel then { t with run := .haltedNormal } else t)

/-- R66: a step always ends, in a completed instruction or in a named failure; it never stops without a next state. -/
def Obligations.EveryRunningStepHasANextState : Prop :=
  ∀ (s : State), s.run = .running →
    ∃ t, step s = .next t ∧
      ((∃ i, s.fetch = .ok i ∧ exec i s = .next { t with run := .running } ∧ t.run ≠ .haltedFault) ∨
        (t.run = .haltedFault ∧ ∃ r, t.fault = some r))

/-- R115: the run states and their transitions. A run starts running at the entry point; a step that completes leaves it running,
or ended normally when `pc` is then the sentinel; a step that fails leaves it in `haltedFault`; from an ended run there is no step,
and the whole state stays. -/
def Obligations.RunStateTransitions : Prop :=
  (∀ cfg : Config, (State.resetWith cfg).run = .running ∧ (State.resetWith cfg).pc = cfg.entryIp) ∧
  (∀ (s : State) (n : Nat), s.run ≠ .running → (∀ t, step s ≠ .next t) ∧ runFuel n s = s) ∧
  (∀ (s u : State) (i : Instr), s.run = .running → s.fetch = .ok i → exec i s = .next u →
    (u.run = .running → u.pc ≠ s.cfg.haltSentinel → step s = .next u ∧ u.fault = s.fault) ∧
    (u.run = .running → u.pc = s.cfg.haltSentinel → step s = .next { u with run := .haltedNormal } ∧ u.fault = s.fault) ∧
    (u.run ≠ .running → step s = .next u ∧ u.run = .haltedFault ∧ ∃ r, u.fault = some r)) ∧
  (∀ (s : State) (f : DecodeFailure Failure), s.run = .running → s.fetch = .error f →
    ∃ t, step s = .next t ∧ t.run = .haltedFault ∧ ∃ r, t.fault = some r)

/-- The configuration is constant from reset on (R22): no step changes it. -/
def Obligations.ConfigurationIsConstant : Prop := ∀ (s t : State), step s = .next t → t.cfg = s.cfg

/-- The state that a created block has (R28, R140). That the seven registers other than ESP are 0 is the spec's decision D5
(DESIGN CHOICE, log 3). -/
def Obligations.ResetState : Prop :=
  ∀ (cfg : Config),
    (State.resetWith cfg).cfg = cfg ∧ (State.resetWith cfg).pc = cfg.entryIp ∧
      (State.resetWith cfg).regs.esp = cfg.initEsp ∧ (∀ r, r ≠ .esp → (State.resetWith cfg).regs.get r = 0) ∧
      (∀ a, (State.resetWith cfg).mem.read a = 0) ∧ (State.resetWith cfg).run = .running ∧
      (State.resetWith cfg).fault = none

/-- The invariant holds in the state of a created block, whatever its legal configuration. -/
def Obligations.ResetMeetsInvariant : Prop :=
  (∀ cfg : Config, cfg.Valid → (State.resetWith cfg).Inv) ∧ State.reset.Inv

/-- The load (R142): the program stands at `LOAD_BASE` as far as the maximum length and the memory allow, nothing else changes,
and the oversize signal says whether a byte was left out. `LOAD_BASE` outside memory copies nothing (D21, log 21); the maximum
length is open (D17, log 4). The loaded state meets the invariant if the state before it does. -/
def Obligations.LoadPlacesTheProgram : Prop :=
  ∀ (s : State) (maxLen : Nat) (p : List Byte), s.Inv →
    ∃ n, n = min p.length (min maxLen (s.cfg.memSize - s.cfg.loadBase.toNat)) ∧
      (s.load maxLen p).2 = decide (n < p.length) ∧
      (∀ i b, i < n → p[i]? = some b → (s.load maxLen p).1.mem.read (s.cfg.loadBase.toNat + i) = b) ∧
      (∀ a, ¬(s.cfg.loadBase.toNat ≤ a ∧ a < s.cfg.loadBase.toNat + n) →
        (s.load maxLen p).1.mem.read a = s.mem.read a) ∧
      (s.load maxLen p).1 = { s with mem := (s.load maxLen p).1.mem } ∧ (s.load maxLen p).1.Inv

/-- The invariant of the machine is kept by every step: memory stays canonical and inside its capacity, the configuration legal,
the fault record there exactly in a failed run and never of kind `RegisterOutOfRange`, and a normal end only at the sentinel. -/
def Obligations.StepKeepsInvariant : Prop :=
  ∀ (s t : State), s.Inv → step s = .next t → t.Inv

/-- A run keeps the invariant and the configuration for as long as it goes, and once ended it stays as it is (R115, R116). -/
def Obligations.RunsKeepInvariantAndStayEnded : Prop :=
  ∀ (s : State) (n k : Nat), s.Inv →
    (runFuel n s).Inv ∧ (runFuel n s).cfg = s.cfg ∧
      ((runFuel n s).run ≠ .running → runFuel (n + k) s = runFuel n s)

/-- R116 and the source's example in R107: `EB FE`, anywhere but at the sentinel, is a run that never ends and changes
nothing: each of its steps is made and leads back to the same state. -/
def Obligations.SelfJumpRunsForever : Prop :=
  ∀ (s : State), s.run = .running → s.cfg.Valid → CodeAt s [0xEB, 0xFE] → s.pc ≠ s.cfg.haltSentinel →
    step s = .next s ∧ RunsForever s ∧ ∀ n, runFuel n s = s

/-- R47, a rule the spec derives: a store is seen by the very next fetch, for every form that stores. Wherever the fetch from the
state after it reads one of the four bytes stored, it reads the byte stored; and where `pc` is then the address stored to and the
word stored decodes to an instruction, the next fetch gives that instruction and the next step runs it. The address stored to and
`pc` are taken modulo 2^32 (D2, log 6; D1, log 5), and the results of ADD, SUB and INC too (D4, log 8). -/
def Obligations.StoreIsSeenByNextFetch : Prop :=
  ∀ (i : Instr) (s : State) (a v : Word), s.mem.wf = true → s.cfg.Valid → s.run = .running →
    storeAddress i s = some a → storedValue i s = some v → InRange s a.toNat →
    ∃ t, exec i s = .next t ∧ t.run = .running ∧
      (s.fetch = .ok i → t.pc ≠ s.cfg.haltSentinel → step s = .next t) ∧
      (∀ n k : Nat, k < 4 → (t.pc + BitVec.ofNat 32 n).toNat = a.toNat + k → t.codeSource.byte n = .ok (byteOf v k)) ∧
      (t.pc = a → ∀ j rest, decodeBytes (bytesOf v) = .ok (j, rest) →
        t.fetch = .ok j ∧ step t = afterExec (exec j t))
end

