-- ==== Sys2Proof/Laws/State.lean ====
section
/-! SUPPORT. The fields of the state after each named update: one lemma per field, so that no later proof unfolds an update. -/

namespace Sys2Proof.Machine

/-! ### Registers -/

@[simp] theorem regs_get_set_self (g : Regs) (r : Reg) (v : Word) : (g.set r v).get r = v := by cases r <;> rfl

theorem regs_get_set_other (g : Regs) {r q : Reg} (v : Word) (h : q ≠ r) : (g.set r v).get q = g.get q := by
  cases r <;> cases q <;> first | rfl | exact absurd rfl h

theorem regs_get_set (g : Regs) (r q : Reg) (v : Word) : (g.set r v).get q = if q = r then v else g.get q := by
  by_cases h : q = r
  · simp [h]
  · simp [h, regs_get_set_other]

@[simp] theorem regs_get_eax (g : Regs) : g.get .eax = g.eax := rfl
@[simp] theorem regs_get_ecx (g : Regs) : g.get .ecx = g.ecx := rfl
@[simp] theorem regs_get_edx (g : Regs) : g.get .edx = g.edx := rfl
@[simp] theorem regs_get_ebx (g : Regs) : g.get .ebx = g.ebx := rfl
@[simp] theorem regs_get_esp (g : Regs) : g.get .esp = g.esp := rfl
@[simp] theorem regs_get_ebp (g : Regs) : g.get .ebp = g.ebp := rfl
@[simp] theorem regs_get_esi (g : Regs) : g.get .esi = g.esi := rfl
@[simp] theorem regs_get_edi (g : Regs) : g.get .edi = g.edi := rfl

/-- Two register files that agree on every register are equal. -/
theorem regs_ext {g h : Regs} (e : ∀ r, g.get r = h.get r) : g = h := by
  cases g; cases h
  exact (Regs.mk.injEq ..).mpr ⟨e .eax, e .ecx, e .edx, e .ebx, e .esp, e .ebp, e .esi, e .edi⟩

/-! ### Register numbers -/

@[simp] theorem reg_ofIndex_index (r : Reg) : Reg.ofIndex r.index = r := by cases r <;> rfl

@[simp] theorem reg_index_ofIndex (i : BitVec 3) : (Reg.ofIndex i).index = i := by
  revert i; decide

/-! ### Taking a failure -/

@[simp] theorem takeFailure_cfg (k a0 op) (s : State) : (s.takeFailure k a0 op).cfg = s.cfg := rfl
@[simp] theorem takeFailure_regs (k a0 op) (s : State) : (s.takeFailure k a0 op).regs = s.regs := rfl
@[simp] theorem takeFailure_pc (k a0 op) (s : State) : (s.takeFailure k a0 op).pc = s.pc := rfl
@[simp] theorem takeFailure_mem (k a0 op) (s : State) : (s.takeFailure k a0 op).mem = s.mem := rfl
@[simp] theorem takeFailure_run (k a0 op) (s : State) : (s.takeFailure k a0 op).run = .haltedFault := rfl
@[simp] theorem takeFailure_fault (k a0 op) (s : State) :
    (s.takeFailure k a0 op).fault = some { failure := k, address := a0, opcode := op } := rfl

/-! ### Consuming code bytes -/

@[simp] theorem consume_cfg (n : Nat) (s : State) : (s.consume n).cfg = s.cfg := rfl
@[simp] theorem consume_regs (n : Nat) (s : State) : (s.consume n).regs = s.regs := rfl
@[simp] theorem consume_pc (n : Nat) (s : State) : (s.consume n).pc = s.pc + BitVec.ofNat 32 n := rfl
@[simp] theorem consume_mem (n : Nat) (s : State) : (s.consume n).mem = s.mem := rfl
@[simp] theorem consume_run (n : Nat) (s : State) : (s.consume n).run = s.run := rfl
@[simp] theorem consume_fault (n : Nat) (s : State) : (s.consume n).fault = s.fault := rfl

/-! ### The halt check -/

@[simp] theorem haltCheck_cfg (s : State) : s.haltCheck.cfg = s.cfg := by unfold State.haltCheck; split <;> rfl
@[simp] theorem haltCheck_regs (s : State) : s.haltCheck.regs = s.regs := by unfold State.haltCheck; split <;> rfl
@[simp] theorem haltCheck_pc (s : State) : s.haltCheck.pc = s.pc := by unfold State.haltCheck; split <;> rfl
@[simp] theorem haltCheck_mem (s : State) : s.haltCheck.mem = s.mem := by unfold State.haltCheck; split <;> rfl
@[simp] theorem haltCheck_fault (s : State) : s.haltCheck.fault = s.fault := by unfold State.haltCheck; split <;> rfl

theorem haltCheck_run (s : State) :
    s.haltCheck.run = if s.run = .running ∧ s.pc = s.cfg.haltSentinel then .haltedNormal else s.run := by
  unfold State.haltCheck; split <;> rfl

/-! ### Placing code and loading -/

@[simp] theorem withFetchWord_cfg (s : State) (n w : Nat) : (s.withFetchWord n w).cfg = s.cfg := rfl
@[simp] theorem withFetchWord_regs (s : State) (n w : Nat) : (s.withFetchWord n w).regs = s.regs := rfl
@[simp] theorem withFetchWord_pc (s : State) (n w : Nat) : (s.withFetchWord n w).pc = s.pc := rfl
@[simp] theorem withFetchWord_run (s : State) (n w : Nat) : (s.withFetchWord n w).run = s.run := rfl
@[simp] theorem withFetchWord_fault (s : State) (n w : Nat) : (s.withFetchWord n w).fault = s.fault := rfl

@[simp] theorem load_cfg (s : State) (n : Nat) (p : List Byte) : (s.load n p).1.cfg = s.cfg := rfl
@[simp] theorem load_regs (s : State) (n : Nat) (p : List Byte) : (s.load n p).1.regs = s.regs := rfl
@[simp] theorem load_pc (s : State) (n : Nat) (p : List Byte) : (s.load n p).1.pc = s.pc := rfl
@[simp] theorem load_run (s : State) (n : Nat) (p : List Byte) : (s.load n p).1.run = s.run := rfl
@[simp] theorem load_fault (s : State) (n : Nat) (p : List Byte) : (s.load n p).1.fault = s.fault := rfl

end Sys2Proof.Machine
end

