-- ==== Sys2Proof/Laws/Memory.lean ====
section
/-! SUPPORT. The laws of memory as a canonical list: a read after a write, and that every write keeps the canonical form and
lists no address outside the capacity. -/

namespace Sys2Proof.Machine

/-! ### The canonical form -/

theorem wfFrom_mono {m : Memory} {j k : Nat} (hjk : j ≤ k) (h : Memory.wfFrom k m = true) :
    Memory.wfFrom j m = true := by
  cases m with
  | nil => rfl
  | cons c rest =>
    obtain ⟨a, v⟩ := c
    simp only [Memory.wfFrom, Bool.and_eq_true, decide_eq_true_eq] at h ⊢
    exact ⟨⟨by omega, h.1.2⟩, h.2⟩

/-- Below the bound of its canonical form a memory lists nothing. -/
theorem read_below {m : Memory} {k a : Nat} (h : Memory.wfFrom k m = true) (ha : a < k) :
    m.read a = Memory.unlisted := by
  induction m generalizing k with
  | nil => rfl
  | cons c rest ih =>
    obtain ⟨b, v⟩ := c
    simp only [Memory.wfFrom, Bool.and_eq_true, decide_eq_true_eq] at h
    simp only [Memory.read]
    rw [if_neg (by omega)]
    exact ih h.2 (by omega)

theorem wfFrom_entry {low a : Nat} {v : Byte} {rest : Memory} (hl : low ≤ a)
    (h : Memory.wfFrom (a + 1) rest = true) : Memory.wfFrom low (Memory.entry a v rest) = true := by
  unfold Memory.entry
  split
  · exact wfFrom_mono (by omega) h
  · rename_i hv
    simp only [Memory.wfFrom, Bool.and_eq_true, decide_eq_true_eq, bne_iff_ne]
    exact ⟨⟨hl, hv⟩, h⟩

theorem wfFrom_write {m : Memory} {low a : Nat} {v : Byte} (h : Memory.wfFrom low m = true) (hl : low ≤ a) :
    Memory.wfFrom low (m.write a v) = true := by
  induction m generalizing low with
  | nil => exact wfFrom_entry hl rfl
  | cons c rest ih =>
    obtain ⟨k, w⟩ := c
    have h' := h
    simp only [Memory.wfFrom, Bool.and_eq_true, decide_eq_true_eq] at h'
    simp only [Memory.write]
    split
    · refine wfFrom_entry hl ?_
      simp only [Memory.wfFrom, Bool.and_eq_true, decide_eq_true_eq]
      exact ⟨⟨by omega, h'.1.2⟩, h'.2⟩
    · split
      · rename_i e; subst e; exact wfFrom_entry hl h'.2
      · simp only [Memory.wfFrom, Bool.and_eq_true, decide_eq_true_eq]
        exact ⟨h'.1, ih h'.2 (by omega)⟩

/-- Every write keeps the canonical form. -/
theorem wf_write {m : Memory} (a : Nat) (v : Byte) (h : m.wf = true) : (m.write a v).wf = true :=
  wfFrom_write h (Nat.zero_le a)

/-! ### Reading after writing -/

theorem read_entry {low a b : Nat} {v : Byte} {rest : Memory} (h : Memory.wfFrom low rest = true) (hl : a < low) :
    (Memory.entry a v rest).read b = if b = a then v else rest.read b := by
  unfold Memory.entry
  split
  · rename_i hv
    split
    · rename_i e; subst e; rw [read_below h hl, hv]
    · rfl
  · simp only [Memory.read, eq_comm]

theorem read_write_from {m : Memory} {low : Nat} (a b : Nat) (v : Byte) (h : Memory.wfFrom low m = true) :
    (m.write a v).read b = if b = a then v else m.read b := by
  induction m generalizing low with
  | nil => exact read_entry (low := a + 1) rfl (by omega)
  | cons c rest ih =>
    obtain ⟨k, w⟩ := c
    have h' := h
    simp only [Memory.wfFrom, Bool.and_eq_true, decide_eq_true_eq] at h'
    simp only [Memory.write]
    split
    · rename_i hak
      refine read_entry (low := k) ?_ hak
      simp only [Memory.wfFrom, Bool.and_eq_true, decide_eq_true_eq]
      exact ⟨⟨by omega, h'.1.2⟩, h'.2⟩
    · split
      · rename_i e; subst e
        rw [read_entry h'.2 (by omega)]
        by_cases hb : b = a
        · simp [hb]
        · simp only [hb, if_false, Memory.read]
          rw [if_neg (Ne.symm hb)]
      · simp only [Memory.read, ih h'.2]
        by_cases hk : k = b
        · subst hk; simp; omega
        · simp [hk]

/-- A read after a write gives the value written at its address and what was there before at every other (R35, R37). -/
theorem read_write {m : Memory} (a b : Nat) (v : Byte) (h : m.wf = true) :
    (m.write a v).read b = if b = a then v else m.read b :=
  read_write_from a b v h

/-! ### The capacity -/

theorem within_entry {size a : Nat} {v : Byte} {rest : Memory} (h : Memory.within size rest = true) (ha : a < size) :
    Memory.within size (Memory.entry a v rest) = true := by
  unfold Memory.entry
  split
  · exact h
  · simp only [Memory.within, List.all_cons, Bool.and_eq_true, decide_eq_true_eq]
    exact ⟨ha, h⟩

/-- A write inside memory lists no address outside it. -/
theorem within_write {m : Memory} {size a : Nat} (v : Byte) (h : m.within size = true) (ha : a < size) :
    (m.write a v).within size = true := by
  induction m with
  | nil => exact within_entry h ha
  | cons c rest ih =>
    obtain ⟨k, w⟩ := c
    have h' := h
    simp only [Memory.within, List.all_cons, Bool.and_eq_true, decide_eq_true_eq] at h'
    have hrest : Memory.within size rest = true := h'.2
    simp only [Memory.write]
    split
    · exact within_entry h ha
    · split
      · exact within_entry hrest ha
      · simp only [Memory.within, List.all_cons, Bool.and_eq_true, decide_eq_true_eq]
        exact ⟨h'.1, ih hrest⟩

/-- A memory in canonical form is determined by what its bytes read as. -/
theorem memory_ext {m n : Memory} (hm : m.wf = true) (hn : n.wf = true) (h : ∀ a, m.read a = n.read a) : m = n := by
  have key : ∀ (low : Nat) (m n : Memory), Memory.wfFrom low m = true → Memory.wfFrom low n = true →
      (∀ a, m.read a = n.read a) → m = n := by
    intro low m
    induction m generalizing low with
    | nil =>
      intro n _ hn h
      cases n with
      | nil => rfl
      | cons c rest =>
        obtain ⟨k, v⟩ := c
        simp only [Memory.wfFrom, Bool.and_eq_true, decide_eq_true_eq, bne_iff_ne] at hn
        have := h k
        simp [Memory.read] at this
        exact absurd this.symm hn.1.2
    | cons c rest ih =>
      obtain ⟨k, v⟩ := c
      intro n hm hn h
      have hm' := hm
      simp only [Memory.wfFrom, Bool.and_eq_true, decide_eq_true_eq, bne_iff_ne] at hm'
      cases n with
      | nil =>
        have := h k
        simp [Memory.read] at this
        exact absurd this hm'.1.2
      | cons d rest' =>
        obtain ⟨k', v'⟩ := d
        have hn' := hn
        simp only [Memory.wfFrom, Bool.and_eq_true, decide_eq_true_eq, bne_iff_ne] at hn'
        have hk : k = k' := by
          rcases Nat.lt_trichotomy k k' with hlt | heq | hgt
          · have := h k
            simp only [Memory.read, if_true] at this
            rw [if_neg (by omega), read_below hn'.2 (by omega)] at this
            exact absurd this hm'.1.2
          · exact heq
          · have := h k'
            simp only [Memory.read, if_true] at this
            rw [if_neg (by omega), read_below hm'.2 (by omega)] at this
            exact absurd this.symm hn'.1.2
        subst hk
        have hv : v = v' := by
          have := h k
          simpa [Memory.read] using this
        subst hv
        congr 1
        refine ih (k + 1) rest' hm'.2 hn'.2 fun a => ?_
        by_cases ha : k = a
        · subst ha; rw [read_below hm'.2 (by omega), read_below hn'.2 (by omega)]
        · have := h a
          simpa [Memory.read, ha] using this
  exact key 0 m n hm hn h

/-! ### Storing the bytes of a word that lie inside memory -/

/-- A byte write that is skipped outside memory. -/
def Memory.writeIn (size : Nat) (m : Memory) (a : Nat) (v : Byte) : Memory := if a < size then m.write a v else m

/-- What a 32-bit write leaves in memory, whole or partial (R36). -/
def Memory.storeBelow (size : Nat) (m : Memory) (a : Nat) (v : Word) : Memory :=
  (((m.writeIn size a (byteOf v 0)).writeIn size (a + 1) (byteOf v 1)).writeIn size (a + 2) (byteOf v 2)).writeIn size
    (a + 3) (byteOf v 3)

theorem wf_writeIn {m : Memory} (size a : Nat) (v : Byte) (h : m.wf = true) : (Memory.writeIn size m a v).wf = true := by
  unfold Memory.writeIn; split
  · exact wf_write a v h
  · exact h

theorem wf_storeBelow {m : Memory} (size a : Nat) (v : Word) (h : m.wf = true) :
    (Memory.storeBelow size m a v).wf = true :=
  wf_writeIn _ _ _ (wf_writeIn _ _ _ (wf_writeIn _ _ _ (wf_writeIn _ _ _ h)))

theorem within_writeIn {m : Memory} (size a : Nat) (v : Byte) (h : m.within size = true) :
    (Memory.writeIn size m a v).within size = true := by
  unfold Memory.writeIn; split
  · exact within_write v h ‹_›
  · exact h

theorem within_storeBelow {m : Memory} (size a : Nat) (v : Word) (h : m.within size = true) :
    (Memory.storeBelow size m a v).within size = true :=
  within_writeIn _ _ _ (within_writeIn _ _ _ (within_writeIn _ _ _ (within_writeIn _ _ _ h)))

theorem read_writeIn {m : Memory} (size a b : Nat) (v : Byte) (h : m.wf = true) :
    (Memory.writeIn size m a v).read b = if b = a ∧ b < size then v else m.read b := by
  unfold Memory.writeIn; split
  · rw [read_write a b v h]
    by_cases hb : b = a
    · subst hb; simp [*]
    · simp [hb]
  · rw [if_neg (by omega)]

/-- What memory reads as after a 32-bit write. -/
theorem read_storeBelow {m : Memory} (size a b : Nat) (v : Word) (h : m.wf = true) :
    (Memory.storeBelow size m a v).read b =
      if a ≤ b ∧ b < a + 4 ∧ b < size then byteOf v (b - a) else m.read b := by
  unfold Memory.storeBelow
  rw [read_writeIn _ _ _ _ (wf_writeIn _ _ _ (wf_writeIn _ _ _ (wf_writeIn _ _ _ h))),
    read_writeIn _ _ _ _ (wf_writeIn _ _ _ (wf_writeIn _ _ _ h)), read_writeIn _ _ _ _ (wf_writeIn _ _ _ h),
    read_writeIn _ _ _ _ h]
  by_cases hs : b < size
  · by_cases h3 : b = a + 3
    · subst h3; simp [hs]
    by_cases h2 : b = a + 2
    · subst h2; simp [hs]
    by_cases h1 : b = a + 1
    · subst h1; simp [hs]
    by_cases h0 : b = a
    · subst h0; simp [hs]
    · rw [if_neg (by omega), if_neg (by omega), if_neg (by omega), if_neg (by omega), if_neg (by omega)]
  · rw [if_neg (by omega), if_neg (by omega), if_neg (by omega), if_neg (by omega), if_neg (by omega)]

/-! ### Writing a list of bytes -/

theorem wf_writeBytes {m : Memory} (a : Nat) (bs : List Byte) (h : m.wf = true) : (m.writeBytes a bs).wf = true := by
  induction bs generalizing m a with
  | nil => exact h
  | cons b bs ih => exact ih (a + 1) (wf_write a b h)

theorem within_writeBytes {m : Memory} {size : Nat} (a : Nat) (bs : List Byte) (h : m.within size = true)
    (ha : bs = [] ∨ a + bs.length ≤ size) : (m.writeBytes a bs).within size = true := by
  induction bs generalizing m a with
  | nil => exact h
  | cons b bs ih =>
    rcases ha with ha | ha
    · exact absurd ha (by simp)
    · simp only [List.length_cons] at ha
      exact ih (a + 1) (within_write b h (by omega)) (.inr (by omega))

/-- What memory reads as after a list of bytes is written. -/
theorem read_writeBytes {m : Memory} (a b : Nat) (bs : List Byte) (h : m.wf = true) :
    (m.writeBytes a bs).read b = if a ≤ b then (bs[b - a]?).getD (m.read b) else m.read b := by
  induction bs generalizing m a with
  | nil => simp [Memory.writeBytes]
  | cons c bs ih =>
    simp only [Memory.writeBytes]
    rw [ih (a + 1) (wf_write a c h), read_write a b c h]
    by_cases hab : a + 1 ≤ b
    · have e : b - a = (b - (a + 1)) + 1 := by omega
      rw [if_pos hab, if_neg (by omega), if_pos (by omega), e, List.getElem?_cons_succ]
    · rw [if_neg hab]
      by_cases hb : b = a
      · subst hb; simp
      · rw [if_neg hb, if_neg (by omega)]

end Sys2Proof.Machine
end

