-- ==== Sys2Proof/Laws/Handlers.lean ====
section
/-! SUPPORT. What each shared operation can do, said once: running a handler, the register port, the reads and writes of
memory, the stack primitives, operand access, and the outcomes of `perform`. -/

namespace Sys2Proof.Machine

/-! ### Bytes of a word -/

/-- A word is made of its bytes. -/
@[simp] theorem wordOfBytes_byteOf (v : Word) : wordOfBytes (byteOf v 0) (byteOf v 1) (byteOf v 2) (byteOf v 3) = v := by
  apply BitVec.eq_of_getLsbD_eq
  intro i hi
  simp only [wordOfBytes, byteOf, BitVec.getLsbD_append, BitVec.getLsbD_extractLsb']
  by_cases h0 : i < 8
  · simp [h0]
  by_cases h1 : i - 8 < 8
  · simp [h0, h1]; congr 1; omega
  by_cases h2 : i - 8 - 8 < 8
  · simp [h0, h1, h2]; congr 1; omega
  · simp [h0, h1, h2]
    rw [decide_eq_true (by omega), Bool.true_and]; congr 1; omega

/-- The number that four bytes make (R33). -/
theorem toNat_wordOfBytes (b0 b1 b2 b3 : Byte) :
    (wordOfBytes b0 b1 b2 b3).toNat = b0.toNat + 2 ^ 8 * b1.toNat + 2 ^ 16 * b2.toNat + 2 ^ 24 * b3.toNat := by
  have := b0.isLt; have := b1.isLt; have := b2.isLt
  simp only [wordOfBytes, BitVec.toNat_append]
  rw [← Nat.shiftLeft_add_eq_or_of_lt b0.isLt, ← Nat.shiftLeft_add_eq_or_of_lt b1.isLt,
    ← Nat.shiftLeft_add_eq_or_of_lt b2.isLt]
  simp only [Nat.shiftLeft_eq]
  omega

theorem bytes_injective {b0 b1 b2 b3 c0 c1 c2 c3 : Byte} (h : wordOfBytes b0 b1 b2 b3 = wordOfBytes c0 c1 c2 c3) :
    b0 = c0 ∧ b1 = c1 ∧ b2 = c2 ∧ b3 = c3 := by
  have e := congrArg BitVec.toNat h
  rw [toNat_wordOfBytes, toNat_wordOfBytes] at e
  have := b0.isLt; have := b1.isLt; have := b2.isLt; have := b3.isLt
  have := c0.isLt; have := c1.isLt; have := c2.isLt; have := c3.isLt
  refine ⟨BitVec.eq_of_toNat_eq ?_, BitVec.eq_of_toNat_eq ?_, BitVec.eq_of_toNat_eq ?_, BitVec.eq_of_toNat_eq ?_⟩ <;> omega

/-- The bytes of a word made of bytes. -/
theorem byteOf_wordOfBytes (b0 b1 b2 b3 : Byte) :
    byteOf (wordOfBytes b0 b1 b2 b3) 0 = b0 ∧ byteOf (wordOfBytes b0 b1 b2 b3) 1 = b1 ∧
      byteOf (wordOfBytes b0 b1 b2 b3) 2 = b2 ∧ byteOf (wordOfBytes b0 b1 b2 b3) 3 = b3 :=
  bytes_injective (wordOfBytes_byteOf _)

@[simp] theorem byteOf_sext8to32 (b : Byte) : byteOf (sext8to32 b) 0 = b := by revert b; decide

/-- A word read back where it was stored whole (R37). -/
theorem readWord_storeBelow {m : Memory} (size a : Nat) (v : Word) (h : m.wf = true) (ha : a + 3 < size) :
    (Memory.storeBelow size m a v).readWord a = v := by
  unfold Memory.readWord
  simp only [read_storeBelow _ _ _ _ h]
  rw [if_pos (by omega), if_pos (by omega), if_pos (by omega), if_pos (by omega)]
  simp

/-- Two memories that agree on four bytes agree on the word. -/
theorem readWord_congr {m n : Memory} {a : Nat} (h : ∀ i, i < 4 → m.read (a + i) = n.read (a + i)) :
    m.readWord a = n.readWord a := by
  unfold Memory.readWord
  rw [show m.read a = n.read a from h 0 (by omega), h 1 (by omega), h 2 (by omega), h 3 (by omega)]

/-! ### Running handlers -/

theorem handler_bind {α β : Type} (h : Handler α) (f : α → Handler β) (s : State) :
    (h >>= f) s = match h s with
      | .ok a t => f a t
      | .error k t => .error k t := by
  simp only [bind, EStateM.bind]; cases h s <;> rfl

@[simp] theorem handler_bind_ok {α β : Type} {h : Handler α} {f : α → Handler β} {s t : State} {a : α}
    (e : h s = .ok a t) : (h >>= f) s = f a t := by rw [handler_bind, e]

@[simp] theorem handler_bind_error {α β : Type} {h : Handler α} {f : α → Handler β} {s t : State} {k : Failure}
    (e : h s = .error k t) : (h >>= f) s = .error k t := by rw [handler_bind, e]

@[simp] theorem handler_pure {α : Type} (a : α) (s : State) : (pure a : Handler α) s = .ok a s := rfl

@[simp] theorem handler_get (s : State) : (get : Handler State) s = .ok s s := rfl

@[simp] theorem raise_run {α : Type} (k : Failure) (s : State) : (raise k : Handler α) s = .error k s := rfl

/-! ### The register port and `pc` -/

@[simp] theorem getReg_run (r : Reg) (s : State) : getReg r s = .ok (s.regs.get r) s := by cases r <;> rfl

@[simp] theorem setReg_run (r : Reg) (v : Word) (s : State) :
    setReg r v s = .ok () { s with regs := s.regs.set r v } := by cases r <;> rfl

@[simp] theorem setPc_run (t : Word) (s : State) : setPc t s = .ok () { s with pc := t } := rfl

@[simp] theorem advance_run (n : Nat) (s : State) :
    advance n s = .ok () { s with pc := s.pc + BitVec.ofNat 32 n } := rfl

@[simp] theorem passModRM_run (m : ModRM) (s : State) :
    passModRM m s = .ok () { s with pc := s.pc + BitVec.ofNat 32 (1 + m.length) } := rfl

/-! ### Memory access -/

/-- Everything a 32-bit read can do (R33). -/
theorem memRead32_run (a : Word) (s : State) :
    memRead32 a s = if InRange s a.toNat then .ok (s.mem.readWord a.toNat) s
      else .error (.memoryOutOfRange (firstBad s.cfg.memSize a.toNat)) s := by
  unfold memRead32 reading State.read32
  by_cases h : a.toNat + 3 < s.cfg.memSize <;> simp [h]

@[simp] theorem memRead32_ok {a : Word} {s : State} (h : InRange s a.toNat) :
    memRead32 a s = .ok (s.mem.readWord a.toNat) s := by rw [memRead32_run, if_pos h]

theorem memRead32_error {a : Word} {s : State} (h : ¬InRange s a.toNat) :
    memRead32 a s = .error (.memoryOutOfRange (firstBad s.cfg.memSize a.toNat)) s := by rw [memRead32_run, if_neg h]

/-- Everything a byte write can do (R35). -/
theorem memWrite8_run (a : Nat) (v : Byte) (s : State) :
    memWrite8 a v s = if a < s.cfg.memSize then .ok () { s with mem := s.mem.write a v }
      else .error (.memoryOutOfRange a) s := rfl

/-- Everything a 32-bit write can do (R36): it stores the bytes that lie inside memory, and fails at the first that does
not. -/
theorem memWrite32_run (a v : Word) (s : State) :
    memWrite32 a v s =
      if InRange s a.toNat then .ok () { s with mem := s.mem.storeBelow s.cfg.memSize a.toNat v }
      else .error (.memoryOutOfRange (firstBad s.cfg.memSize a.toNat))
        { s with mem := s.mem.storeBelow s.cfg.memSize a.toNat v } := by
  unfold memWrite32 Memory.storeBelow Memory.writeIn firstBad
  by_cases h0 : a.toNat < s.cfg.memSize
  · by_cases h1 : a.toNat + 1 < s.cfg.memSize
    · by_cases h2 : a.toNat + 2 < s.cfg.memSize
      · by_cases h3 : a.toNat + 3 < s.cfg.memSize
        · simp [handler_bind, memWrite8_run, InRange, h0, h1, h2, h3]
        · have e : a.toNat + 3 = max a.toNat s.cfg.memSize := by omega
          simp [handler_bind, memWrite8_run, InRange, h0, h1, h2, e]
      · have h3 : ¬a.toNat + 3 < s.cfg.memSize := by omega
        have e : a.toNat + 2 = max a.toNat s.cfg.memSize := by omega
        simp [handler_bind, memWrite8_run, InRange, h0, h1, h3, e]
    · have h2 : ¬a.toNat + 2 < s.cfg.memSize := by omega
      have h3 : ¬a.toNat + 3 < s.cfg.memSize := by omega
      have e : a.toNat + 1 = max a.toNat s.cfg.memSize := by omega
      simp [handler_bind, memWrite8_run, InRange, h0, h2, h3, e]
  · have h1 : ¬a.toNat + 1 < s.cfg.memSize := by omega
    have h2 : ¬a.toNat + 2 < s.cfg.memSize := by omega
    have h3 : ¬a.toNat + 3 < s.cfg.memSize := by omega
    have e : a.toNat = max a.toNat s.cfg.memSize := by omega
    simp [handler_bind, memWrite8_run, InRange, h0, h1, h2, h3, ← e]

@[simp] theorem memWrite32_ok {a v : Word} {s : State} (h : InRange s a.toNat) :
    memWrite32 a v s = .ok () { s with mem := s.mem.storeBelow s.cfg.memSize a.toNat v } := by
  rw [memWrite32_run, if_pos h]

theorem memWrite32_error {a v : Word} {s : State} (h : ¬InRange s a.toNat) :
    memWrite32 a v s = .error (.memoryOutOfRange (firstBad s.cfg.memSize a.toNat))
      { s with mem := s.mem.storeBelow s.cfg.memSize a.toNat v } := by rw [memWrite32_run, if_neg h]

/-- A whole store, in the words of the statements. -/
theorem storedWord_storeBelow {s t : State} {a : Nat} {v : Word} (h : s.mem.wf = true) (ha : InRange s a)
    (e : t.mem = s.mem.storeBelow s.cfg.memSize a v) : StoredWord s t a v := by
  constructor
  · intro i hi
    rw [e, read_storeBelow _ _ _ _ h, if_pos (by simp only [InRange] at ha; omega), Nat.add_sub_cancel_left]
  · intro b hb
    rw [e, read_storeBelow _ _ _ _ h, if_neg (by omega)]

/-- A partial store, in the words of the statements. -/
theorem storedBelow_storeBelow {s t : State} {a : Nat} {v : Word} (h : s.mem.wf = true)
    (e : t.mem = s.mem.storeBelow s.cfg.memSize a v) : StoredBelow s t a v := by
  constructor
  · intro i hi hs
    rw [e, read_storeBelow _ _ _ _ h, if_pos (by omega), Nat.add_sub_cancel_left]
  · intro b hb
    rw [e, read_storeBelow _ _ _ _ h, if_neg hb]

/-! ### The stack primitives -/

/-- The state after the stack pointer is set. -/
theorem regs_set_esp (g : Regs) (v : Word) : g.set .esp v = { g with esp := v } := rfl

/-- Everything `Push` can do (R95). -/
theorem push_run (v : Word) (s : State) :
    push v s =
      if InRange s (s.regs.esp - 4).toNat then
        .ok () { s with
          regs := s.regs.set .esp (s.regs.esp - 4)
          mem := s.mem.storeBelow s.cfg.memSize (s.regs.esp - 4).toNat v }
      else .error (.memoryOutOfRange (firstBad s.cfg.memSize (s.regs.esp - 4).toNat))
        { s with
          regs := s.regs.set .esp (s.regs.esp - 4)
          mem := s.mem.storeBelow s.cfg.memSize (s.regs.esp - 4).toNat v } := by
  unfold push
  simp only [handler_bind, getReg_run, setReg_run, regs_get_esp, memWrite32_run, InRange]

/-- Everything `Pop` can do (R96). -/
theorem pop_run (s : State) :
    pop s =
      if InRange s s.regs.esp.toNat then
        .ok (s.mem.readWord s.regs.esp.toNat) { s with regs := s.regs.set .esp (s.regs.esp + 4) }
      else .error (.memoryOutOfRange (firstBad s.cfg.memSize s.regs.esp.toNat)) s := by
  unfold pop
  by_cases h : InRange s s.regs.esp.toNat
  · simp only [handler_bind, getReg_run, regs_get_esp, memRead32_run, if_pos h, setReg_run, handler_pure]
  · simp only [handler_bind, getReg_run, regs_get_esp, memRead32_run, if_neg h]

/-! ### Operand access -/

/-- Everything `EffAddr` can do (R72). -/
theorem effAddr_run (m : ModRM) (s : State) :
    effAddr m s = if m.rm = 4 then .error (.addressingNotImplemented m) s else .ok (effectiveAddress m s.regs) s := by
  unfold effAddr
  split <;> rfl

/-- Everything `GetRm32` can do (R73, R78). -/
theorem getRm32_run (m : ModRM) (s : State) :
    getRm32 m s =
      if m.mod = 3 then .ok (s.regs.get (rmReg m)) s
      else if m.rm = 4 then .error (.addressingNotImplemented m) s
      else if InRange s (effectiveAddress m s.regs).toNat then
        .ok (s.mem.readWord (effectiveAddress m s.regs).toNat) s
      else .error (.memoryOutOfRange (firstBad s.cfg.memSize (effectiveAddress m s.regs).toNat)) s := by
  unfold getRm32
  split
  · simp
  · by_cases h : m.rm = 4
    · simp only [handler_bind, effAddr_run, if_pos h]
    · simp only [handler_bind, effAddr_run, if_neg h, memRead32_run]

/-- Everything `SetRm32` can do (R74, R78). -/
theorem setRm32_run (m : ModRM) (v : Word) (s : State) :
    setRm32 m v s =
      if m.mod = 3 then .ok () { s with regs := s.regs.set (rmReg m) v }
      else if m.rm = 4 then .error (.addressingNotImplemented m) s
      else if InRange s (effectiveAddress m s.regs).toNat then
        .ok () { s with mem := s.mem.storeBelow s.cfg.memSize (effectiveAddress m s.regs).toNat v }
      else .error (.memoryOutOfRange (firstBad s.cfg.memSize (effectiveAddress m s.regs).toNat))
        { s with mem := s.mem.storeBelow s.cfg.memSize (effectiveAddress m s.regs).toNat v } := by
  unfold setRm32
  split
  · simp
  · by_cases h : m.rm = 4
    · simp only [handler_bind, effAddr_run, if_pos h]
    · simp only [handler_bind, effAddr_run, if_neg h, memWrite32_run]

@[simp] theorem getR32_run (m : ModRM) (s : State) : getR32 m s = .ok (s.regs.get (regReg m)) s := getReg_run _ _

@[simp] theorem setR32_run (m : ModRM) (v : Word) (s : State) :
    setR32 m v s = .ok () { s with regs := s.regs.set (regReg m) v } := setReg_run _ _ _

/-! ### Performing an instruction -/

theorem perform_ok {op : Byte} {h : Handler Unit} {s t : State} (e : h s = .ok () t) : perform op h s = .next t := by
  unfold perform; rw [e]

theorem perform_error {op : Byte} {h : Handler Unit} {s t : State} {k : Failure} (e : h s = .error k t) :
    perform op h s = .next (t.takeFailure k s.pc (some op)) := by unfold perform; rw [e]

/-- An instruction always answers a next state (R66). -/
theorem perform_next (op : Byte) (h : Handler Unit) (s : State) : ∃ t, perform op h s = .next t := by
  unfold perform; cases h s <;> exact ⟨_, rfl⟩

end Sys2Proof.Machine
end

