-- ==== Sys2Proof/Laws/Decoding.lean ====
section
/-! SUPPORT. The decoder: what a list of bytes gives it, what a parsed descriptor is, that parsing does not depend on where the
bytes come from, and that memory serves it the bytes that stand at `pc`. -/

namespace Sys2Proof

open Sys2Proof.Machine

/-! ### The fields of a ModRM byte -/

theorem modrm_fields (mod : BitVec 2) (reg rm : BitVec 3) :
    modField (mod ++ reg ++ rm) = mod ∧ regField (mod ++ reg ++ rm) = reg ∧ rmField (mod ++ reg ++ rm) = rm := by
  revert mod reg rm; decide

theorem modrm_byte_fields (b : Byte) : modField b ++ regField b ++ rmField b = b := by revert b; decide

@[simp] theorem modField_byte (m : ModRM) : modField m.byte = m.mod := (modrm_fields m.mod m.reg m.rm).1
@[simp] theorem regField_byte (m : ModRM) : regField m.byte = m.reg := (modrm_fields m.mod m.reg m.rm).2.1
@[simp] theorem rmField_byte (m : ModRM) : rmField m.byte = m.rm := (modrm_fields m.mod m.reg m.rm).2.2

/-! ### Lists of bytes as a source -/

theorem ofList_byte_eq_ok {bs : List Byte} {k : Nat} {b : Byte} :
    (ByteSource.ofList bs).byte k = .ok b ↔ bs.drop k = b :: bs.drop (k + 1) := by
  rw [← List.drop_drop]
  cases h : bs.drop k with
  | nil => simp [ByteSource.ofList, h]
  | cons c t => simp [ByteSource.ofList, h]

theorem ofList_word_eq_ok {bs : List Byte} {k : Nat} {w : Word} :
    (ByteSource.ofList bs).word k = .ok w ↔ bs.drop k = bytesOf w ++ bs.drop (k + 4) := by
  rw [← List.drop_drop]
  rcases h : bs.drop k with _ | ⟨c0, _ | ⟨c1, _ | ⟨c2, _ | ⟨c3, t⟩⟩⟩⟩
  · simp [ByteSource.ofList, h, bytesOf]
  · simp [ByteSource.ofList, h, bytesOf]
  · simp [ByteSource.ofList, h, bytesOf]
  · simp [ByteSource.ofList, h, bytesOf]
  · simp only [ByteSource.ofList, h, bytesOf, Except.ok.injEq, List.drop_succ_cons, List.drop_zero, List.cons_append,
      List.nil_append, List.cons.injEq, and_true]
    constructor
    · intro e; subst e
      obtain ⟨e0, e1, e2, e3⟩ := byteOf_wordOfBytes c0 c1 c2 c3
      exact ⟨e0.symm, e1.symm, e2.symm, e3.symm⟩
    · rintro ⟨rfl, rfl, rfl, rfl⟩; exact wordOfBytes_byteOf w

theorem ofList_byte_cons (b : Byte) (bs : List Byte) (k : Nat) :
    (ByteSource.ofList (b :: bs)).byte (k + 1) = (ByteSource.ofList bs).byte k := rfl

theorem ofList_word_cons (b : Byte) (bs : List Byte) (k : Nat) :
    (ByteSource.ofList (b :: bs)).word (k + 1) = (ByteSource.ofList bs).word k := rfl

/-- The byte that stands after a list. -/
theorem ofList_byte_after (xs ys : List Byte) (b : Byte) {n : Nat} (h : xs.length = n) :
    (ByteSource.ofList (xs ++ b :: ys)).byte n = .ok b := by
  subst h; simp [ByteSource.ofList]

/-- The word that stands after a list. -/
theorem ofList_word_after (xs ys : List Byte) (w : Word) {n : Nat} (h : xs.length = n) :
    (ByteSource.ofList (xs ++ (bytesOf w ++ ys))).word n = .ok w := by
  subst h; simp [ByteSource.ofList, bytesOf]

/-- The length of an encoded ModRM sequence is the one of R55. -/
theorem modrm_encode_length {m : ModRM} (h : m.wf = true) : m.encode.length = m.length := by
  obtain ⟨hs, -⟩ : m.sibOk = true ∧ m.dispOk = true := by simpa [ModRM.wf] using h
  have h1 : m.sib.toList.length = if sibFollows m.mod m.rm then 1 else 0 := by
    unfold ModRM.sibOk at hs
    cases hf : sibFollows m.mod m.rm <;> cases hx : m.sib <;> simp_all
  have h2 : m.dispBytes.length = (dispKind m.mod m.rm).size := by
    unfold ModRM.dispBytes; cases dispKind m.mod m.rm <;> rfl
  simp only [ModRM.encode, ModRM.length, List.length_cons, List.length_append, h1, h2]
  omega

/-! ### The ModRM parser -/

theorem failAt_eq_ok {ε α : Type} {k : Nat} {r : Except ε α} {a : α} : failAt k r = .ok a ↔ r = .ok a := by
  cases r <;> simp [failAt, Except.mapError]

/-- What the parser needs to succeed, and what it then gives: one equation for the byte, the SIB byte and the displacement. -/
theorem parseModRM_eq_ok {ε : Type} {src : ByteSource ε} {k : Nat} {m : ModRM} {n : Nat} :
    parseModRM src k = .ok (m, n) ↔
      ∃ k1, src.byte k = .ok m.byte ∧ parseSib src m.mod m.rm (k + 1) = .ok (m.sib, k1) ∧
        parseDisp src m.mod m.rm k1 = .ok (m.disp, n) := by
  constructor
  · intro h
    unfold parseModRM at h
    cases hb : src.byte k with
    | error e => rw [hb] at h; cases h
    | ok b =>
      rw [hb] at h
      simp only [failAt, Except.mapError, bind, Except.bind, pure, Except.pure] at h
      cases hs : parseSib src (modField b) (rmField b) (k + 1) with
      | error e => rw [hs] at h; cases h
      | ok p =>
        obtain ⟨sib, k1⟩ := p
        rw [hs] at h
        simp only at h
        cases hd : parseDisp src (modField b) (rmField b) k1 with
        | error e => rw [hd] at h; cases h
        | ok q =>
          obtain ⟨disp, k2⟩ := q
          rw [hd] at h
          simp only [Except.ok.injEq, Prod.mk.injEq] at h
          obtain ⟨rfl, rfl⟩ := h
          refine ⟨k1, ?_, hs, hd⟩
          simp only [ModRM.byte, modrm_byte_fields]
  · rintro ⟨k1, hb, hs, hd⟩
    unfold parseModRM
    simp only [hb, failAt, Except.mapError, bind, Except.bind, modField_byte, rmField_byte, regField_byte, hs, hd, pure,
      Except.pure]

/-- The SIB byte that was parsed is there exactly when R53 says so. -/
theorem parseSib_eq_ok {ε : Type} {src : ByteSource ε} {mod : BitVec 2} {rm : BitVec 3} {k n : Nat} {x : Option Byte} :
    parseSib src mod rm k = .ok (x, n) ↔
      if sibFollows mod rm then ∃ b, x = some b ∧ src.byte k = .ok b ∧ n = k + 1 else x = none ∧ n = k := by
  unfold parseSib
  split
  · cases src.byte k with
    | error e => simp [failAt, Except.mapError, Except.map]
    | ok b =>
      simp only [failAt, Except.mapError, Except.map, Except.ok.injEq, Prod.mk.injEq]
      constructor
      · rintro ⟨rfl, rfl⟩; exact ⟨b, rfl, rfl, rfl⟩
      · rintro ⟨c, rfl, rfl, rfl⟩; exact ⟨rfl, rfl⟩
  · simp only [Except.ok.injEq, Prod.mk.injEq, eq_comm]

/-- The displacement that was parsed is the one R54 names. -/
theorem parseDisp_eq_ok {ε : Type} {src : ByteSource ε} {mod : BitVec 2} {rm : BitVec 3} {k n : Nat} {x : Option Word} :
    parseDisp src mod rm k = .ok (x, n) ↔
      match dispKind mod rm with
      | .absent => x = none ∧ n = k
      | .disp8 => ∃ b, x = some (sext8to32 b) ∧ src.byte k = .ok b ∧ n = k + 1
      | .disp32 => ∃ w, x = some w ∧ src.word k = .ok w ∧ n = k + 4 := by
  unfold parseDisp
  cases dispKind mod rm with
  | absent => simp only [Except.ok.injEq, Prod.mk.injEq, eq_comm]
  | disp8 =>
    cases src.byte k with
    | error e => simp [failAt, Except.mapError, Except.map]
    | ok b =>
      simp only [failAt, Except.mapError, Except.map, Except.ok.injEq, Prod.mk.injEq]
      constructor
      · rintro ⟨rfl, rfl⟩; exact ⟨b, rfl, rfl, rfl⟩
      · rintro ⟨c, rfl, rfl, rfl⟩; exact ⟨rfl, rfl⟩
  | disp32 =>
    cases src.word k with
    | error e => simp [failAt, Except.mapError, Except.map]
    | ok w =>
      simp only [failAt, Except.mapError, Except.map, Except.ok.injEq, Prod.mk.injEq]
      constructor
      · rintro ⟨rfl, rfl⟩; exact ⟨w, rfl, rfl, rfl⟩
      · rintro ⟨c, rfl, rfl, rfl⟩; exact ⟨rfl, rfl⟩

/-- What is parsed is well-formed, and its length is the one of R55. -/
theorem parseModRM_wf {ε : Type} {src : ByteSource ε} {k n : Nat} {m : ModRM} (h : parseModRM src k = .ok (m, n)) :
    m.wf = true ∧ n = k + m.length := by
  obtain ⟨k1, -, hs, hd⟩ := parseModRM_eq_ok.mp h
  rw [parseSib_eq_ok] at hs
  rw [parseDisp_eq_ok] at hd
  have hsib : m.sibOk = true ∧ k1 = k + 1 + (if sibFollows m.mod m.rm then 1 else 0) := by
    unfold ModRM.sibOk
    split at hs
    · obtain ⟨b, e, -, rfl⟩ := hs; simp [*]
    · obtain ⟨e, rfl⟩ := hs; simp [*]
  have hdisp : m.dispOk = true ∧ n = k1 + (dispKind m.mod m.rm).size := by
    unfold ModRM.dispOk
    cases hk : dispKind m.mod m.rm with
    | absent => rw [hk] at hd; simp [hd.1, hd.2, DispKind.size]
    | disp8 => rw [hk] at hd; obtain ⟨b, e, -, rfl⟩ := hd; simp [e, DispKind.size]
    | disp32 => rw [hk] at hd; obtain ⟨w, e, -, rfl⟩ := hd; simp [e, DispKind.size]
  refine ⟨by simp [ModRM.wf, hsib.1, hdisp.1], ?_⟩
  rw [hdisp.2, hsib.2]
  simp only [ModRM.length]; omega

/-- A descriptor is parsed from a list exactly when it is well-formed and its encoding stands there. -/
theorem parseModRM_ofList {bs : List Byte} {k n : Nat} {m : ModRM} :
    parseModRM (ByteSource.ofList bs) k = .ok (m, n) ↔
      m.wf = true ∧ n = k + m.length ∧ bs.drop k = m.encode ++ bs.drop n := by
  constructor
  · intro h
    obtain ⟨hw, hn⟩ := parseModRM_wf h
    refine ⟨hw, hn, ?_⟩
    obtain ⟨k1, hb, hs, hd⟩ := parseModRM_eq_ok.mp h
    rw [ofList_byte_eq_ok] at hb
    rw [parseSib_eq_ok] at hs
    rw [parseDisp_eq_ok] at hd
    have h1 : bs.drop (k + 1) = m.sib.toList ++ bs.drop k1 := by
      split at hs
      · obtain ⟨b, e, hx, rfl⟩ := hs; rw [e]; exact ofList_byte_eq_ok.mp hx
      · obtain ⟨e, rfl⟩ := hs; rw [e]; rfl
    have h2 : bs.drop k1 = m.dispBytes ++ bs.drop n := by
      unfold ModRM.dispBytes
      cases hk : dispKind m.mod m.rm with
      | absent => rw [hk] at hd; rw [hd.2]; rfl
      | disp8 =>
        rw [hk] at hd; obtain ⟨b, e, hx, rfl⟩ := hd
        simpa [ModRM.dispWord, e] using ofList_byte_eq_ok.mp hx
      | disp32 =>
        rw [hk] at hd; obtain ⟨w, e, hx, rfl⟩ := hd
        simpa [ModRM.dispWord, e] using ofList_word_eq_ok.mp hx
    rw [hb, h1, h2, ModRM.encode]
    simp
  · rintro ⟨hw, hn, he⟩
    obtain ⟨hs, hd⟩ : m.sibOk = true ∧ m.dispOk = true := by simpa [ModRM.wf] using hw
    have h0 : bs.drop k = m.byte :: bs.drop (k + 1) ∧ bs.drop (k + 1) = m.sib.toList ++ (m.dispBytes ++ bs.drop n) := by
      have : bs.drop (k + 1) = (bs.drop k).drop 1 := by rw [List.drop_drop]
      rw [this, he, ModRM.encode]; simp
    refine parseModRM_eq_ok.mpr
      ⟨k + 1 + (if sibFollows m.mod m.rm then 1 else 0), ofList_byte_eq_ok.mpr h0.1, ?_, ?_⟩
    · rw [parseSib_eq_ok]
      unfold ModRM.sibOk at hs
      split
      · rename_i hf
        rw [hf] at hs
        obtain ⟨b, e⟩ := Option.isSome_iff_exists.mp (by simpa using hs)
        refine ⟨b, e, ofList_byte_eq_ok.mpr ?_, rfl⟩
        have : bs.drop (k + 1 + 1) = (bs.drop (k + 1)).drop 1 := by rw [List.drop_drop]
        rw [this, h0.2, e]; simp
      · rename_i hf
        simp only [hf] at hs
        exact ⟨by simpa using hs, by simp⟩
    · rw [parseDisp_eq_ok]
      have h1 : bs.drop (k + 1 + (if sibFollows m.mod m.rm then 1 else 0)) = m.dispBytes ++ bs.drop n := by
        unfold ModRM.sibOk at hs
        rw [← List.drop_drop, h0.2]
        cases hf : sibFollows m.mod m.rm with
        | true =>
          rw [hf] at hs
          obtain ⟨b, e⟩ := Option.isSome_iff_exists.mp (by simpa using hs)
          simp [e]
        | false =>
          rw [hf] at hs
          have e : m.sib = none := by simpa using hs
          simp [e]
      have hn' : n = k + 1 + (if sibFollows m.mod m.rm then 1 else 0) + (dispKind m.mod m.rm).size := by
        rw [hn]; simp only [ModRM.length]; omega
      unfold ModRM.dispOk at hd
      unfold ModRM.dispBytes at h1
      cases hk : dispKind m.mod m.rm with
      | absent =>
        rw [hk] at hd hn'
        cases hx : m.disp with
        | none => exact ⟨rfl, by rw [hn']; rfl⟩
        | some d => rw [hx] at hd; cases hd
      | disp8 =>
        rw [hk] at hd h1 hn'
        cases hx : m.disp with
        | none => rw [hx] at hd; cases hd
        | some d =>
          rw [hx] at hd
          have hd' : sext8to32 (byteOf d 0) = d := by simpa using hd
          refine ⟨byteOf d 0, by rw [hd'], ofList_byte_eq_ok.mpr ?_, hn'⟩
          rw [h1, hn']; simp [ModRM.dispWord, hx, DispKind.size]
      | disp32 =>
        rw [hk] at hd h1 hn'
        cases hx : m.disp with
        | none => rw [hx] at hd; cases hd
        | some d =>
          refine ⟨d, rfl, ofList_word_eq_ok.mpr ?_, hn'⟩
          rw [h1, hn']; simp [ModRM.dispWord, hx, DispKind.size]

/-- An encoded ModRM sequence after an opcode byte is parsed back. -/
theorem parseModRM_encode {m : ModRM} (op : Byte) (ys : List Byte) (h : m.wf = true) :
    parseModRM (ByteSource.ofList (op :: (m.encode ++ ys))) 1 = .ok (m, 1 + m.length) := by
  refine parseModRM_ofList.mpr ⟨h, rfl, ?_⟩
  rw [Nat.add_comm 1 m.length]
  simp only [List.drop_succ_cons, List.drop_zero]
  rw [← modrm_encode_length h, List.drop_left]

/-! ### Sources that give the same bytes -/

/-- Whatever one source gives, the other gives too. -/
structure Serves {ε δ : Type} (src : ByteSource ε) (srv : ByteSource δ) : Prop where
  byte : ∀ k b, src.byte k = .ok b → srv.byte k = .ok b
  word : ∀ k w, src.word k = .ok w → srv.word k = .ok w

theorem parseModRM_serves {ε δ : Type} {src : ByteSource ε} {srv : ByteSource δ} (h : Serves src srv) {k n : Nat} {m : ModRM}
    (e : parseModRM src k = .ok (m, n)) : parseModRM srv k = .ok (m, n) := by
  rw [parseModRM_eq_ok] at e ⊢
  obtain ⟨k1, hb, hs, hd⟩ := e
  refine ⟨k1, h.byte _ _ hb, ?_, ?_⟩
  · rw [parseSib_eq_ok] at hs ⊢
    split at hs
    · obtain ⟨b, hx, hy, hz⟩ := hs; rw [if_pos ‹_›]; exact ⟨b, hx, h.byte _ _ hy, hz⟩
    · rw [if_neg ‹_›]; exact hs
  · rw [parseDisp_eq_ok] at hd ⊢
    cases hk : dispKind m.mod m.rm with
    | absent => rw [hk] at hd; exact hd
    | disp8 => rw [hk] at hd; obtain ⟨b, hx, hy, hz⟩ := hd; exact ⟨b, hx, h.byte _ _ hy, hz⟩
    | disp32 => rw [hk] at hd; obtain ⟨b, hx, hy, hz⟩ := hd; exact ⟨b, hx, h.word _ _ hy, hz⟩

theorem operandByte_eq_ok {ε : Type} {src : ByteSource ε} {op b : Byte} :
    operandByte src op = .ok b ↔ src.byte 1 = .ok b := by
  unfold operandByte; cases src.byte 1 <;> simp [Except.mapError]

theorem operandWord_eq_ok {ε : Type} {src : ByteSource ε} {op : Byte} {w : Word} :
    operandWord src op = .ok w ↔ src.word 1 = .ok w := by
  unfold operandWord; cases src.word 1 <;> simp [Except.mapError]

theorem operandModRM_eq_ok {ε : Type} {src : ByteSource ε} {op : Byte} {p : ModRM × Nat} :
    operandModRM src op = .ok p ↔ parseModRM src 1 = .ok p := by
  unfold operandModRM; cases parseModRM src 1 <;> simp [Except.mapError]

theorem map_eq_ok {ε α β : Type} {f : α → β} {r : Except ε α} {b : β} :
    r.map f = .ok b ↔ ∃ a, r = .ok a ∧ f a = b := by
  cases r <;> simp [Except.map]

theorem bind_eq_ok {ε α β : Type} {f : α → Except ε β} {r : Except ε α} {b : β} :
    (r >>= f) = .ok b ↔ ∃ a, r = .ok a ∧ f a = .ok b := by
  cases r <;> simp [bind, Except.bind]

theorem mapError_eq_ok {ε δ α : Type} {f : ε → δ} {r : Except ε α} {a : α} :
    r.mapError f = .ok a ↔ r = .ok a := by
  cases r <;> simp [Except.mapError]

/-- When the rest of an instruction decodes, and to what: one line per entry of the dispatch table. -/
theorem decodeEntry_eq_ok {ε : Type} {src : ByteSource ε} {op : Byte} {e : Entry} {i : Instr} :
    decodeEntry src op e = .ok i ↔
      match e with
      | .addRm32R32 => ∃ m n, parseModRM src 1 = .ok (m, n) ∧ i = .addRm32R32 m
      | .pushR32 r => i = .pushR32 r
      | .popR32 r => i = .popR32 r
      | .pushImm32 => ∃ w, src.word 1 = .ok w ∧ i = .pushImm32 w
      | .pushImm8 => ∃ b, src.byte 1 = .ok b ∧ i = .pushImm8 b
      | .group83 => ∃ m n b, parseModRM src 1 = .ok (m, n) ∧ src.byte n = .ok b ∧
          (m.reg = 0 ∧ i = .addRm32Imm8 m b ∨ m.reg = 5 ∧ i = .subRm32Imm8 m b)
      | .movRm32R32 => ∃ m n, parseModRM src 1 = .ok (m, n) ∧ i = .movRm32R32 m
      | .movR32Rm32 => ∃ m n, parseModRM src 1 = .ok (m, n) ∧ i = .movR32Rm32 m
      | .movR32Imm32 r => ∃ w, src.word 1 = .ok w ∧ i = .movR32Imm32 r w
      | .ret => i = .ret
      | .movRm32Imm32 => ∃ m n w, parseModRM src 1 = .ok (m, n) ∧ src.word n = .ok w ∧ i = .movRm32Imm32 m w
      | .leave => i = .leave
      | .callRel32 => ∃ w, src.word 1 = .ok w ∧ i = .callRel32 w
      | .jmpRel32 => ∃ w, src.word 1 = .ok w ∧ i = .jmpRel32 w
      | .jmpRel8 => ∃ b, src.byte 1 = .ok b ∧ i = .jmpRel8 b
      | .groupFF => ∃ m n, parseModRM src 1 = .ok (m, n) ∧ m.reg = 0 ∧ i = .incRm32 m := by
  cases e with
  | addRm32R32 | movRm32R32 | movR32Rm32 =>
    simp only [decodeEntry, map_eq_ok, operandModRM_eq_ok, Prod.exists, eq_comm (a := i)]
  | pushR32 r | popR32 r | ret | leave => simp only [decodeEntry, Except.ok.injEq, eq_comm]
  | pushImm32 | movR32Imm32 r | callRel32 | jmpRel32 => simp only [decodeEntry, map_eq_ok, operandWord_eq_ok, eq_comm (a := i)]
  | pushImm8 | jmpRel8 => simp only [decodeEntry, map_eq_ok, operandByte_eq_ok, eq_comm (a := i)]
  | group83 =>
    simp only [decodeEntry, decodeGroup83, bind_eq_ok, operandModRM_eq_ok, Prod.exists]
    constructor
    · rintro ⟨m, n, hm, hi⟩
      split at hi
      · simp only [bind_eq_ok, mapError_eq_ok, pure, Except.pure, Except.ok.injEq] at hi
        obtain ⟨b, hb, rfl⟩ := hi; exact ⟨m, n, b, hm, hb, .inl ⟨‹_›, rfl⟩⟩
      · split at hi
        · simp only [bind_eq_ok, mapError_eq_ok, pure, Except.pure, Except.ok.injEq] at hi
          obtain ⟨b, hb, rfl⟩ := hi; exact ⟨m, n, b, hm, hb, .inr ⟨‹_›, rfl⟩⟩
        · cases hi
    · rintro ⟨m, n, b, hm, hb, ⟨hr, rfl⟩ | ⟨hr, rfl⟩⟩
      · exact ⟨m, n, hm, by simp [hr, hb, Except.mapError, bind, Except.bind, pure, Except.pure]⟩
      · exact ⟨m, n, hm, by simp [hr, hb, Except.mapError, bind, Except.bind, pure, Except.pure]⟩
  | movRm32Imm32 =>
    simp only [decodeEntry, decodeMovRm32Imm32, bind_eq_ok, operandModRM_eq_ok, Prod.exists, mapError_eq_ok, pure,
      Except.pure, Except.ok.injEq]
    constructor
    · rintro ⟨m, n, hm, w, hw, rfl⟩; exact ⟨m, n, w, hm, hw, rfl⟩
    · rintro ⟨m, n, w, hm, hw, rfl⟩; exact ⟨m, n, hm, w, hw, rfl⟩
  | groupFF =>
    simp only [decodeEntry, decodeGroupFF, bind_eq_ok, operandModRM_eq_ok, Prod.exists]
    constructor
    · rintro ⟨m, n, hm, hi⟩
      split at hi
      · simp only [pure, Except.pure, Except.ok.injEq] at hi; exact ⟨m, n, hm, ‹_›, hi.symm⟩
      · cases hi
    · rintro ⟨m, n, hm, hr, rfl⟩
      exact ⟨m, n, hm, by simp [hr, pure, Except.pure]⟩

/-- When a list of bytes decodes, to what, and what is left. -/
theorem decodeBytes_eq_ok {bs rest : List Byte} {i : Instr} :
    decodeBytes bs = .ok (i, rest) ↔ decode (ByteSource.ofList bs) = .ok i ∧ rest = bs.drop i.length := by
  unfold decodeBytes
  rw [map_eq_ok]
  simp only [Prod.mk.injEq]
  constructor
  · rintro ⟨j, hj, rfl, rfl⟩; exact ⟨hj, rfl⟩
  · rintro ⟨hj, rfl⟩; exact ⟨i, hj, rfl, rfl⟩

/-- When a source decodes, and to what. -/
theorem decode_eq_ok {ε : Type} {src : ByteSource ε} {i : Instr} :
    decode src = .ok i ↔ ∃ op e, src.byte 0 = .ok op ∧ dispatch op = some e ∧ decodeEntry src op e = .ok i := by
  unfold decode
  cases src.byte 0 with
  | error e => simp
  | ok op =>
    cases hd : dispatch op with
    | none => simp [hd]
    | some e => simp [hd]

theorem decodeEntry_serves {ε δ : Type} {src : ByteSource ε} {srv : ByteSource δ} (h : Serves src srv) {op : Byte}
    {e : Entry} {i : Instr} (hi : decodeEntry src op e = .ok i) : decodeEntry srv op e = .ok i := by
  rw [decodeEntry_eq_ok] at hi ⊢
  cases e with
  | addRm32R32 | movRm32R32 | movR32Rm32 =>
    obtain ⟨m, n, hm, rfl⟩ := hi; exact ⟨m, n, parseModRM_serves h hm, rfl⟩
  | pushR32 r | popR32 r | ret | leave => exact hi
  | pushImm32 | movR32Imm32 r | callRel32 | jmpRel32 => obtain ⟨w, hw, rfl⟩ := hi; exact ⟨w, h.word _ _ hw, rfl⟩
  | pushImm8 | jmpRel8 => obtain ⟨b, hb, rfl⟩ := hi; exact ⟨b, h.byte _ _ hb, rfl⟩
  | group83 => obtain ⟨m, n, b, hm, hb, hi⟩ := hi; exact ⟨m, n, b, parseModRM_serves h hm, h.byte _ _ hb, hi⟩
  | movRm32Imm32 => obtain ⟨m, n, w, hm, hw, rfl⟩ := hi; exact ⟨m, n, w, parseModRM_serves h hm, h.word _ _ hw, rfl⟩
  | groupFF => obtain ⟨m, n, hm, hi⟩ := hi; exact ⟨m, n, parseModRM_serves h hm, hi⟩

/-- What decodes from one source decodes alike from any source that serves the same bytes. -/
theorem decode_serves {ε δ : Type} {src : ByteSource ε} {srv : ByteSource δ} (h : Serves src srv) {i : Instr}
    (hi : decode src = .ok i) : decode srv = .ok i := by
  rw [decode_eq_ok] at hi ⊢
  obtain ⟨op, e, hb, hd, hi⟩ := hi
  exact ⟨op, e, h.byte _ _ hb, hd, decodeEntry_serves h hi⟩

/-! ### The dispatch table, read the other way -/

/-- The first byte that selects an entry. -/
def Entry.opcode : Entry → Byte
  | .addRm32R32 => 0x01
  | .pushR32 r => 0x50 + r.index.setWidth 8
  | .popR32 r => 0x58 + r.index.setWidth 8
  | .pushImm32 => 0x68
  | .pushImm8 => 0x6A
  | .group83 => 0x83
  | .movRm32R32 => 0x89
  | .movR32Rm32 => 0x8B
  | .movR32Imm32 r => 0xB8 + r.index.setWidth 8
  | .ret => 0xC3
  | .movRm32Imm32 => 0xC7
  | .leave => 0xC9
  | .callRel32 => 0xE8
  | .jmpRel32 => 0xE9
  | .jmpRel8 => 0xEB
  | .groupFF => 0xFF

theorem dispatch_opcode (e : Entry) : dispatch e.opcode = some e := by
  cases e with
  | pushR32 r | popR32 r | movR32Imm32 r => cases r <;> decide
  | _ => decide

theorem opcode_of_dispatch {op : Byte} {e : Entry} (h : dispatch op = some e) : op = e.opcode := by
  have key : ∀ b : Byte, (dispatch b).elim true (fun e => b == e.opcode) = true := by decide
  have := key op
  rw [h] at this
  simpa using this

/-- Each entry of the dispatch table has exactly one first byte. -/
theorem dispatch_eq_some {op : Byte} {e : Entry} : dispatch op = some e ↔ op = e.opcode :=
  ⟨opcode_of_dispatch, fun h => h ▸ dispatch_opcode e⟩

/-- The unmapped first bytes are those of R60. -/
theorem dispatch_eq_none {op : Byte} : dispatch op = none ↔ Unmapped op := by
  revert op; decide

end Sys2Proof

namespace Sys2Proof.Machine

/-! ### Memory as a source -/

/-- Memory serves the bytes that stand at `pc`. -/
theorem codeAt_serves {s : State} {bs : List Byte} (hv : s.cfg.Valid) (h : CodeAt s bs) :
    Serves (ByteSource.ofList bs) s.codeSource := by
  have key : ∀ k b, bs[k]? = some b →
      (s.pc + BitVec.ofNat 32 k).toNat = s.pc.toNat + k ∧ s.pc.toNat + k < s.cfg.memSize ∧
        s.mem.read (s.pc.toNat + k) = b := by
    intro k b hb
    obtain ⟨h1, h2⟩ := h k b hb
    have := hv.2
    refine ⟨?_, h1, h2⟩
    rw [BitVec.toNat_add, BitVec.toNat_ofNat, Nat.mod_eq_of_lt (show k < 2 ^ 32 by omega), Nat.mod_eq_of_lt (by omega)]
  constructor
  · intro k b hb
    obtain ⟨e, hlt, hr⟩ := key k b (by rw [← List.head?_drop, ofList_byte_eq_ok.mp hb]; rfl)
    simp only [State.codeSource, State.read8, e, if_pos hlt, hr]
  · intro k w hw
    have hd := ofList_word_eq_ok.mp hw
    have hk : ∀ j, j < 4 → bs[k + j]? = (bytesOf w)[j]? := by
      intro j hj
      rw [← List.getElem?_drop, hd, List.getElem?_append_left (by simpa [bytesOf] using hj)]
    obtain ⟨e, -, hr0⟩ := key k (byteOf w 0) (by simpa [bytesOf] using hk 0 (by omega))
    obtain ⟨-, -, hr1⟩ := key (k + 1) (byteOf w 1) (by simpa [bytesOf] using hk 1 (by omega))
    obtain ⟨-, -, hr2⟩ := key (k + 2) (byteOf w 2) (by simpa [bytesOf] using hk 2 (by omega))
    obtain ⟨-, hlt, hr3⟩ := key (k + 3) (byteOf w 3) (by simpa [bytesOf] using hk 3 (by omega))
    simp only [State.codeSource, State.read32, e]
    rw [if_pos (show s.pc.toNat + k + 3 < s.cfg.memSize by omega)]
    simp only [Memory.readWord, Nat.add_assoc, hr0, hr1, hr2, hr3, wordOfBytes_byteOf]

end Sys2Proof.Machine
end

