-- ==== Sys2Proof/Laws/Instructions.lean ====
section
/-! SUPPORT. What each meaning answers, said once and in full: the state an instruction completes in, and the state each of its
failures leaves. Later proofs cite these and unfold no meaning. -/

namespace Sys2Proof.Machine

/-- The address of an r/m32 memory operand, as a number. -/
abbrev operandAddress (m : ModRM) (s : State) : Nat := (effectiveAddress m s.regs).toNat

/-- The state of a memory operand's access outside memory, with the bytes that were stored. -/
abbrev memoryFailure (a : Nat) (op : Byte) (s t : State) : State :=
  t.takeFailure (.memoryOutOfRange (firstBad s.cfg.memSize a)) s.pc (some op)

/-! ### Data movement -/

/-- Everything MOV r/m32, r32 can do (R85). -/
theorem execMovRm32R32_run (m : ModRM) (s : State) :
    execMovRm32R32 m s = .next (
      if m.mod = 3 then { s.consume (1 + m.length) with regs := s.regs.set (rmReg m) (s.regs.get (regReg m)) }
      else if m.rm = 4 then (s.consume (1 + m.length)).takeFailure (.addressingNotImplemented m) s.pc (some 0x89)
      else if InRange s (operandAddress m s) then
        { s.consume (1 + m.length) with
          mem := s.mem.storeBelow s.cfg.memSize (operandAddress m s) (s.regs.get (regReg m)) }
      else memoryFailure (operandAddress m s) 0x89 s
        { s.consume (1 + m.length) with
          mem := s.mem.storeBelow s.cfg.memSize (operandAddress m s) (s.regs.get (regReg m)) }) := by
  unfold execMovRm32R32 perform
  simp only [handler_bind, passModRM_run, getR32_run, setRm32_run]
  by_cases h3 : m.mod = 3
  · simp only [if_pos h3]; rfl
  by_cases h4 : m.rm = 4
  · simp only [if_neg h3, if_pos h4]; rfl
  by_cases hr : InRange s (operandAddress m s)
  · simp only [if_neg h3, if_neg h4, if_pos hr]; rfl
  · simp only [if_neg h3, if_neg h4, if_neg hr]; rfl

/-- Everything MOV r32, r/m32 can do (R86). -/
theorem execMovR32Rm32_run (m : ModRM) (s : State) :
    execMovR32Rm32 m s = .next (
      if m.mod = 3 then { s.consume (1 + m.length) with regs := s.regs.set (regReg m) (s.regs.get (rmReg m)) }
      else if m.rm = 4 then (s.consume (1 + m.length)).takeFailure (.addressingNotImplemented m) s.pc (some 0x8B)
      else if InRange s (operandAddress m s) then
        { s.consume (1 + m.length) with
          regs := s.regs.set (regReg m) (s.mem.readWord (operandAddress m s)) }
      else memoryFailure (operandAddress m s) 0x8B s (s.consume (1 + m.length))) := by
  unfold execMovR32Rm32 perform
  simp only [handler_bind, passModRM_run, setR32_run, getRm32_run]
  by_cases h3 : m.mod = 3
  · simp only [if_pos h3]; rfl
  by_cases h4 : m.rm = 4
  · simp only [if_neg h3, if_pos h4]; rfl
  by_cases hr : InRange s (operandAddress m s)
  · simp only [if_neg h3, if_neg h4, if_pos hr]; rfl
  · simp only [if_neg h3, if_neg h4, if_neg hr]; rfl

/-- Everything MOV r32, imm32 can do (R87). -/
theorem execMovR32Imm32_run (r : Reg) (imm : Word) (s : State) :
    execMovR32Imm32 r imm s = .next { s.consume 5 with regs := s.regs.set r imm } := by
  unfold execMovR32Imm32 perform
  simp only [handler_bind, setReg_run, advance_run]; rfl

/-- Everything MOV r/m32, imm32 can do (R88). -/
theorem execMovRm32Imm32_run (m : ModRM) (imm : Word) (s : State) :
    execMovRm32Imm32 m imm s = .next (
      if m.mod = 3 then { s.consume (5 + m.length) with regs := s.regs.set (rmReg m) imm }
      else if m.rm = 4 then (s.consume (5 + m.length)).takeFailure (.addressingNotImplemented m) s.pc (some 0xC7)
      else if InRange s (operandAddress m s) then
        { s.consume (5 + m.length) with mem := s.mem.storeBelow s.cfg.memSize (operandAddress m s) imm }
      else memoryFailure (operandAddress m s) 0xC7 s
        { s.consume (5 + m.length) with mem := s.mem.storeBelow s.cfg.memSize (operandAddress m s) imm }) := by
  have e : s.pc + BitVec.ofNat 32 (1 + m.length) + BitVec.ofNat 32 4 = s.pc + BitVec.ofNat 32 (5 + m.length) := by
    rw [BitVec.add_assoc, ← BitVec.ofNat_add]; congr 2; omega
  unfold execMovRm32Imm32 perform
  simp only [handler_bind, passModRM_run, advance_run, setRm32_run, e]
  by_cases h3 : m.mod = 3
  · simp only [if_pos h3]; rfl
  by_cases h4 : m.rm = 4
  · simp only [if_neg h3, if_pos h4]; rfl
  by_cases hr : InRange s (operandAddress m s)
  · simp only [if_neg h3, if_neg h4, if_pos hr]; rfl
  · simp only [if_neg h3, if_neg h4, if_neg hr]; rfl

/-! ### Arithmetic -/

/-- What a read, modify and write of an r/m32 operand can do: `n` bytes are consumed when it completes, and
`g` is applied to the operand (R77: the write cannot fail when the read succeeded). -/
def modifyRm (m : ModRM) (op : Byte) (n : Nat) (g : Word → Word) (s : State) : State :=
  if m.mod = 3 then { s.consume n with regs := s.regs.set (rmReg m) (g (s.regs.get (rmReg m))) }
  else if m.rm = 4 then (s.consume (1 + m.length)).takeFailure (.addressingNotImplemented m) s.pc (some op)
  else if InRange s (operandAddress m s) then
    { s.consume n with
      mem := s.mem.storeBelow s.cfg.memSize (operandAddress m s) (g (s.mem.readWord (operandAddress m s))) }
  else memoryFailure (operandAddress m s) op s (s.consume (1 + m.length))

/-- Everything ADD r/m32, r32 can do (R90). -/
theorem execAddRm32R32_run (m : ModRM) (s : State) :
    execAddRm32R32 m s = .next (modifyRm m 0x01 (1 + m.length) (· + s.regs.get (regReg m)) s) := by
  unfold execAddRm32R32 perform modifyRm
  simp only [handler_bind, passModRM_run, getR32_run, getRm32_run, setRm32_run]
  by_cases h3 : m.mod = 3
  · simp only [if_pos h3]; rfl
  by_cases h4 : m.rm = 4
  · simp only [if_neg h3, if_pos h4]; rfl
  by_cases hr : InRange s (operandAddress m s)
  · simp only [if_neg h3, if_neg h4, if_pos hr]; rfl
  · simp only [if_neg h3, if_neg h4, if_neg hr]; rfl

/-- Everything ADD r/m32, imm8 can do (R91). -/
theorem execAddRm32Imm8_run (m : ModRM) (imm : Byte) (s : State) :
    execAddRm32Imm8 m imm s = .next (modifyRm m 0x83 (2 + m.length) (· + sext8to32 imm) s) := by
  have e : s.pc + BitVec.ofNat 32 (1 + m.length) + BitVec.ofNat 32 1 = s.pc + BitVec.ofNat 32 (2 + m.length) := by
    rw [BitVec.add_assoc, ← BitVec.ofNat_add]; congr 2; omega
  unfold execAddRm32Imm8 perform modifyRm
  simp only [handler_bind, passModRM_run, advance_run, getRm32_run, setRm32_run]
  by_cases h3 : m.mod = 3
  · simp only [if_pos h3, e]; rfl
  by_cases h4 : m.rm = 4
  · simp only [if_neg h3, if_pos h4]; rfl
  by_cases hr : InRange s (operandAddress m s)
  · simp only [if_neg h3, if_neg h4, if_pos hr, e]; rfl
  · simp only [if_neg h3, if_neg h4, if_neg hr]; rfl

/-- Everything SUB r/m32, imm8 can do (R92). -/
theorem execSubRm32Imm8_run (m : ModRM) (imm : Byte) (s : State) :
    execSubRm32Imm8 m imm s = .next (modifyRm m 0x83 (2 + m.length) (· - sext8to32 imm) s) := by
  have e : s.pc + BitVec.ofNat 32 (1 + m.length) + BitVec.ofNat 32 1 = s.pc + BitVec.ofNat 32 (2 + m.length) := by
    rw [BitVec.add_assoc, ← BitVec.ofNat_add]; congr 2; omega
  unfold execSubRm32Imm8 perform modifyRm
  simp only [handler_bind, passModRM_run, advance_run, getRm32_run, setRm32_run]
  by_cases h3 : m.mod = 3
  · simp only [if_pos h3, e]; rfl
  by_cases h4 : m.rm = 4
  · simp only [if_neg h3, if_pos h4]; rfl
  by_cases hr : InRange s (operandAddress m s)
  · simp only [if_neg h3, if_neg h4, if_pos hr, e]; rfl
  · simp only [if_neg h3, if_neg h4, if_neg hr]; rfl

/-- Everything INC r/m32 can do (R93). -/
theorem execIncRm32_run (m : ModRM) (s : State) :
    execIncRm32 m s = .next (modifyRm m 0xFF (1 + m.length) (· + 1) s) := by
  unfold execIncRm32 perform modifyRm
  simp only [handler_bind, passModRM_run, getRm32_run, setRm32_run]
  by_cases h3 : m.mod = 3
  · simp only [if_pos h3]; rfl
  by_cases h4 : m.rm = 4
  · simp only [if_neg h3, if_pos h4]; rfl
  by_cases hr : InRange s (operandAddress m s)
  · simp only [if_neg h3, if_neg h4, if_pos hr]; rfl
  · simp only [if_neg h3, if_neg h4, if_neg hr]; rfl

/-! ### The stack -/

/-- What an instruction that pushes `v` can do: it completes with `pc` at `t`, or the push fails with `pc` at the opcode. -/
def pushAnd (op : Byte) (v t : Word) (s : State) : State :=
  if InRange s (s.regs.esp - 4).toNat then
    { s with
      pc := t
      regs := s.regs.set .esp (s.regs.esp - 4)
      mem := s.mem.storeBelow s.cfg.memSize (s.regs.esp - 4).toNat v }
  else memoryFailure (s.regs.esp - 4).toNat op s
    { s with
      regs := s.regs.set .esp (s.regs.esp - 4)
      mem := s.mem.storeBelow s.cfg.memSize (s.regs.esp - 4).toNat v }

/-- Everything PUSH r32 can do (R97). -/
theorem execPushR32_run (r : Reg) (s : State) :
    execPushR32 r s = .next (pushAnd (Instr.pushR32 r).opcode (s.regs.get r) (s.pc + 1) s) := by
  unfold execPushR32 perform pushAnd
  simp only [handler_bind, getReg_run, push_run]
  by_cases hr : InRange s (s.regs.esp - 4).toNat
  · simp only [if_pos hr]; rfl
  · simp only [if_neg hr]

/-- Everything PUSH imm32 can do (R99). -/
theorem execPushImm32_run (imm : Word) (s : State) :
    execPushImm32 imm s = .next (pushAnd 0x68 imm (s.pc + 5) s) := by
  unfold execPushImm32 perform pushAnd
  simp only [handler_bind, push_run]
  by_cases hr : InRange s (s.regs.esp - 4).toNat
  · simp only [if_pos hr]; rfl
  · simp only [if_neg hr]; rfl

/-- Everything PUSH imm8 can do (R100). -/
theorem execPushImm8_run (imm : Byte) (s : State) :
    execPushImm8 imm s = .next (pushAnd 0x6A (zext8to32 imm) (s.pc + 2) s) := by
  unfold execPushImm8 perform pushAnd
  simp only [handler_bind, push_run]
  by_cases hr : InRange s (s.regs.esp - 4).toNat
  · simp only [if_pos hr]; rfl
  · simp only [if_neg hr]; rfl

/-- Everything POP r32 can do (R98). -/
theorem execPopR32_run (r : Reg) (s : State) :
    execPopR32 r s = .next (
      if InRange s s.regs.esp.toNat then
        { s with
          pc := s.pc + 1
          regs := (s.regs.set .esp (s.regs.esp + 4)).set r (s.mem.readWord s.regs.esp.toNat) }
      else memoryFailure s.regs.esp.toNat (Instr.popR32 r).opcode s s) := by
  unfold execPopR32 perform
  simp only [handler_bind, pop_run]
  by_cases hr : InRange s s.regs.esp.toNat
  · simp only [if_pos hr, setReg_run]; rfl
  · simp only [if_neg hr]

/-- Everything LEAVE can do (R101). -/
theorem execLeave_run (s : State) :
    execLeave s = .next (
      if InRange s s.regs.ebp.toNat then
        { s with
          pc := s.pc + 1
          regs := (s.regs.set .esp (s.regs.ebp + 4)).set .ebp (s.mem.readWord s.regs.ebp.toNat) }
      else memoryFailure s.regs.ebp.toNat 0xC9 s { s with regs := s.regs.set .esp s.regs.ebp }) := by
  have e : pop { s with regs := s.regs.set .esp s.regs.ebp } =
      if InRange s s.regs.ebp.toNat then
        .ok (s.mem.readWord s.regs.ebp.toNat) { s with regs := s.regs.set .esp (s.regs.ebp + 4) }
      else .error (.memoryOutOfRange (firstBad s.cfg.memSize s.regs.ebp.toNat))
        { s with regs := s.regs.set .esp s.regs.ebp } := pop_run _
  unfold execLeave perform
  simp only [handler_bind, getReg_run, setReg_run, regs_get_ebp, e]
  by_cases hr : InRange s s.regs.ebp.toNat
  · simp only [if_pos hr]; rfl
  · simp only [if_neg hr]; rfl

/-! ### Control transfer -/

/-- Everything CALL rel32 can do (R104). -/
theorem execCallRel32_run (rel : Word) (s : State) :
    execCallRel32 rel s = .next (pushAnd 0xE8 (s.pc + 5) (s.pc + 5 + rel) s) := by
  unfold execCallRel32 perform pushAnd
  simp only [handler_bind, push_run]
  by_cases hr : InRange s (s.regs.esp - 4).toNat
  · simp only [if_pos hr]; rfl
  · simp only [if_neg hr]; rfl

/-- Everything RET can do (R105). -/
theorem execRet_run (s : State) :
    execRet s = .next (
      if InRange s s.regs.esp.toNat then
        { s with pc := s.mem.readWord s.regs.esp.toNat, regs := s.regs.set .esp (s.regs.esp + 4) }
      else memoryFailure s.regs.esp.toNat 0xC3 s s) := by
  unfold execRet perform
  simp only [handler_bind, pop_run]
  by_cases hr : InRange s s.regs.esp.toNat
  · simp only [if_pos hr]; rfl
  · simp only [if_neg hr]; rfl

/-- Everything JMP rel32 can do (R106). -/
theorem execJmpRel32_run (rel : Word) (s : State) :
    execJmpRel32 rel s = .next { s with pc := s.pc + 5 + rel } := rfl

/-- Everything JMP rel8 can do (R107). -/
theorem execJmpRel8_run (rel : Byte) (s : State) :
    execJmpRel8 rel s = .next { s with pc := s.pc + 2 + sext8to32 rel } := rfl

end Sys2Proof.Machine
end

