-- ==== Sys2Proof/Laws/PerInstr.lean ====
section
/-! SUPPORT. The family `EncodedLength`, one lemma per instruction: the bytes the encoder gives are as many as the format of the
instruction says (`30_encoding.md` R51), never more than eleven (R50), and start with its opcode. -/

namespace Sys2Proof.Laws.EncodedLength

/-- The bytes of a well-formed instruction: their number and the first of them. -/
def Statement (i : Instr) : Prop :=
  i.wf = true → (encode i).length = i.length ∧ 1 ≤ i.length ∧ i.length ≤ maxLength ∧ (encode i).head? = some i.opcode

/-- A ModRM sequence has 1 to 6 bytes (R55). -/
theorem modrm_length_bounds (m : ModRM) : 1 ≤ m.length ∧ m.length ≤ 6 := by
  unfold ModRM.length
  have h : (dispKind m.mod m.rm).size ≤ 4 := by cases dispKind m.mod m.rm <;> decide
  split <;> omega

theorem addRm32R32 (m : ModRM) : Statement (.addRm32R32 m) := by
  intro h
  have := modrm_encode_length (m := m) h
  have := modrm_length_bounds m
  simp only [encode, Instr.length, maxLength, List.length_cons]
  exact ⟨by omega, by omega, by omega, rfl⟩

theorem pushR32 (r : Reg) : Statement (.pushR32 r) :=
  fun _ => ⟨rfl, by simp [Instr.length], by simp [Instr.length, maxLength], rfl⟩

theorem popR32 (r : Reg) : Statement (.popR32 r) :=
  fun _ => ⟨rfl, by simp [Instr.length], by simp [Instr.length, maxLength], rfl⟩

theorem pushImm32 (imm : Word) : Statement (.pushImm32 imm) :=
  fun _ => ⟨rfl, by simp [Instr.length], by simp [Instr.length, maxLength], rfl⟩

theorem pushImm8 (imm : Byte) : Statement (.pushImm8 imm) :=
  fun _ => ⟨rfl, by simp [Instr.length], by simp [Instr.length, maxLength], rfl⟩

theorem addRm32Imm8 (m : ModRM) (imm : Byte) : Statement (.addRm32Imm8 m imm) := by
  intro h
  have := modrm_encode_length (m := m) (by simp only [Instr.wf, Bool.and_eq_true] at h; exact h.1)
  have := modrm_length_bounds m
  simp only [encode, Instr.length, maxLength, List.length_cons, List.length_append, List.length_nil]
  exact ⟨by omega, by omega, by omega, rfl⟩

theorem subRm32Imm8 (m : ModRM) (imm : Byte) : Statement (.subRm32Imm8 m imm) := by
  intro h
  have := modrm_encode_length (m := m) (by simp only [Instr.wf, Bool.and_eq_true] at h; exact h.1)
  have := modrm_length_bounds m
  simp only [encode, Instr.length, maxLength, List.length_cons, List.length_append, List.length_nil]
  exact ⟨by omega, by omega, by omega, rfl⟩

theorem movRm32R32 (m : ModRM) : Statement (.movRm32R32 m) := by
  intro h
  have := modrm_encode_length (m := m) h
  have := modrm_length_bounds m
  simp only [encode, Instr.length, maxLength, List.length_cons]
  exact ⟨by omega, by omega, by omega, rfl⟩

theorem movR32Rm32 (m : ModRM) : Statement (.movR32Rm32 m) := by
  intro h
  have := modrm_encode_length (m := m) h
  have := modrm_length_bounds m
  simp only [encode, Instr.length, maxLength, List.length_cons]
  exact ⟨by omega, by omega, by omega, rfl⟩

theorem movR32Imm32 (r : Reg) (imm : Word) : Statement (.movR32Imm32 r imm) :=
  fun _ => ⟨rfl, by simp [Instr.length], by simp [Instr.length, maxLength], rfl⟩

theorem ret : Statement .ret :=
  fun _ => ⟨rfl, by simp [Instr.length], by simp [Instr.length, maxLength], rfl⟩

theorem movRm32Imm32 (m : ModRM) (imm : Word) : Statement (.movRm32Imm32 m imm) := by
  intro h
  have := modrm_encode_length (m := m) h
  have := modrm_length_bounds m
  simp only [encode, Instr.length, maxLength, List.length_cons, List.length_append, bytesOf, List.length_nil]
  exact ⟨by omega, by omega, by omega, rfl⟩

theorem leave : Statement .leave :=
  fun _ => ⟨rfl, by simp [Instr.length], by simp [Instr.length, maxLength], rfl⟩

theorem callRel32 (rel : Word) : Statement (.callRel32 rel) :=
  fun _ => ⟨rfl, by simp [Instr.length], by simp [Instr.length, maxLength], rfl⟩

theorem jmpRel32 (rel : Word) : Statement (.jmpRel32 rel) :=
  fun _ => ⟨rfl, by simp [Instr.length], by simp [Instr.length, maxLength], rfl⟩

theorem jmpRel8 (rel : Byte) : Statement (.jmpRel8 rel) :=
  fun _ => ⟨rfl, by simp [Instr.length], by simp [Instr.length, maxLength], rfl⟩

theorem incRm32 (m : ModRM) : Statement (.incRm32 m) := by
  intro h
  have := modrm_encode_length (m := m) (by simp only [Instr.wf, Bool.and_eq_true] at h; exact h.1)
  have := modrm_length_bounds m
  simp only [encode, Instr.length, maxLength, List.length_cons]
  exact ⟨by omega, by omega, by omega, rfl⟩

end Sys2Proof.Laws.EncodedLength
end

