-- ==== Sys2Proof/Laws/Step.lean ====
section
/-! SUPPORT. What a step can do, said once: every instruction answers a next state and keeps the configuration and the form of
memory; a fetch that fails keeps registers and memory; and where the failures of a fetch come from. -/

namespace Sys2Proof.Machine

/-! ### Any instruction -/

/-- What one instruction keeps and how it ends: it completes with `run` and `fault` as they were, or it takes a failure that is
recorded with the instruction's address and opcode byte and is not `RegisterOutOfRange`. -/
structure Answer (s t : State) (op : Byte) : Prop where
  cfg : t.cfg = s.cfg
  wf : s.mem.wf = true → t.mem.wf = true
  within : s.mem.within s.cfg.memSize = true → t.mem.within s.cfg.memSize = true
  ends : (t.run = s.run ∧ t.fault = s.fault) ∨
    (t.run = .haltedFault ∧ ∃ k, t.fault = some { failure := k, address := s.pc, opcode := some op } ∧
      ∀ i, k ≠ .registerOutOfRange i)

/-- An instruction that completes without a store. -/
theorem answer_completed {s t : State} {op : Byte} (hc : t.cfg = s.cfg) (hm : t.mem = s.mem) (hr : t.run = s.run)
    (hf : t.fault = s.fault) : Answer s t op :=
  ⟨hc, fun h => hm ▸ h, fun h => hm ▸ h, .inl ⟨hr, hf⟩⟩

/-- An instruction that completes with a store. -/
theorem answer_stored {s t : State} {op : Byte} (a : Nat) (v : Word) (hc : t.cfg = s.cfg)
    (hm : t.mem = s.mem.storeBelow s.cfg.memSize a v) (hr : t.run = s.run) (hf : t.fault = s.fault) : Answer s t op :=
  ⟨hc, fun h => hm ▸ wf_storeBelow _ _ _ h, fun h => hm ▸ within_storeBelow _ _ _ h, .inl ⟨hr, hf⟩⟩

/-- An instruction that fails after what it did before. -/
theorem answer_failed {s t : State} {op : Byte} {k : Failure} (hk : ∀ i, k ≠ .registerOutOfRange i) (h : Answer s t op) :
    Answer s (t.takeFailure k s.pc (some op)) op :=
  ⟨h.cfg, h.wf, h.within, .inr ⟨rfl, k, rfl, hk⟩⟩

theorem answer_modifyRm (m : ModRM) (op : Byte) (n : Nat) (g : Word → Word) (s : State) :
    Answer s (modifyRm m op n g s) op := by
  unfold modifyRm
  split
  · exact answer_completed rfl rfl rfl rfl
  split
  · exact answer_failed (by simp) (answer_completed rfl rfl rfl rfl)
  split
  · exact answer_stored _ _ rfl rfl rfl rfl
  · exact answer_failed (by simp) (answer_completed rfl rfl rfl rfl)

theorem answer_pushAnd (op : Byte) (v t : Word) (s : State) : Answer s (pushAnd op v t s) op := by
  unfold pushAnd
  split
  · exact answer_stored _ _ rfl rfl rfl rfl
  · exact answer_failed (by simp) (answer_stored _ _ rfl rfl rfl rfl)

/-- Every instruction answers a next state, in every state. -/
theorem exec_answer (i : Instr) (s : State) : ∃ t, exec i s = .next t ∧ Answer s t i.opcode := by
  cases i with
  | addRm32R32 m => exact ⟨_, execAddRm32R32_run m s, answer_modifyRm ..⟩
  | addRm32Imm8 m imm => exact ⟨_, execAddRm32Imm8_run m imm s, answer_modifyRm ..⟩
  | subRm32Imm8 m imm => exact ⟨_, execSubRm32Imm8_run m imm s, answer_modifyRm ..⟩
  | incRm32 m => exact ⟨_, execIncRm32_run m s, answer_modifyRm ..⟩
  | pushR32 r => exact ⟨_, execPushR32_run r s, answer_pushAnd ..⟩
  | pushImm32 imm => exact ⟨_, execPushImm32_run imm s, answer_pushAnd ..⟩
  | pushImm8 imm => exact ⟨_, execPushImm8_run imm s, answer_pushAnd ..⟩
  | callRel32 rel => exact ⟨_, execCallRel32_run rel s, answer_pushAnd ..⟩
  | popR32 r =>
    refine ⟨_, execPopR32_run r s, ?_⟩
    split
    · exact answer_completed rfl rfl rfl rfl
    · exact answer_failed (by simp) (answer_completed rfl rfl rfl rfl)
  | ret =>
    refine ⟨_, execRet_run s, ?_⟩
    split
    · exact answer_completed rfl rfl rfl rfl
    · exact answer_failed (by simp) (answer_completed rfl rfl rfl rfl)
  | leave =>
    refine ⟨_, execLeave_run s, ?_⟩
    split
    · exact answer_completed rfl rfl rfl rfl
    · exact answer_failed (by simp) (answer_completed rfl rfl rfl rfl)
  | movRm32R32 m =>
    refine ⟨_, execMovRm32R32_run m s, ?_⟩
    split
    · exact answer_completed rfl rfl rfl rfl
    split
    · exact answer_failed (by simp) (answer_completed rfl rfl rfl rfl)
    split
    · exact answer_stored _ _ rfl rfl rfl rfl
    · exact answer_failed (by simp) (answer_stored _ _ rfl rfl rfl rfl)
  | movR32Rm32 m =>
    refine ⟨_, execMovR32Rm32_run m s, ?_⟩
    split
    · exact answer_completed rfl rfl rfl rfl
    split
    · exact answer_failed (by simp) (answer_completed rfl rfl rfl rfl)
    split
    · exact answer_completed rfl rfl rfl rfl
    · exact answer_failed (by simp) (answer_completed rfl rfl rfl rfl)
  | movR32Imm32 r imm => exact ⟨_, execMovR32Imm32_run r imm s, answer_completed rfl rfl rfl rfl⟩
  | movRm32Imm32 m imm =>
    refine ⟨_, execMovRm32Imm32_run m imm s, ?_⟩
    split
    · exact answer_completed rfl rfl rfl rfl
    split
    · exact answer_failed (by simp) (answer_completed rfl rfl rfl rfl)
    split
    · exact answer_stored _ _ rfl rfl rfl rfl
    · exact answer_failed (by simp) (answer_stored _ _ rfl rfl rfl rfl)
  | jmpRel32 rel => exact ⟨_, execJmpRel32_run rel s, answer_completed rfl rfl rfl rfl⟩
  | jmpRel8 rel => exact ⟨_, execJmpRel8_run rel s, answer_completed rfl rfl rfl rfl⟩

/-! ### The failures of a fetch -/

/-- The failure that reading code bytes raises. -/
theorem codeSource_byte_error {s : State} {k : Nat} {e : Failure} (h : s.codeSource.byte k = .error e) :
    ∃ a, e = .memoryOutOfRange a := by
  simp only [State.codeSource, State.read8] at h
  split at h
  · cases h
  · cases h; exact ⟨_, rfl⟩

theorem codeSource_word_error {s : State} {k : Nat} {e : Failure} (h : s.codeSource.word k = .error e) :
    ∃ a, e = .memoryOutOfRange a := by
  simp only [State.codeSource, State.read32] at h
  split at h
  · cases h
  · cases h; exact ⟨_, rfl⟩

/-- The opcode byte, read at `pc`. -/
theorem codeSource_byte_zero (s : State) :
    s.codeSource.byte 0 =
      if s.pc.toNat < s.cfg.memSize then .ok (s.mem.read s.pc.toNat)
      else .error (.memoryOutOfRange s.pc.toNat) := by
  simp only [State.codeSource, State.read8, firstBad, BitVec.add_zero]
  split
  · rfl
  · rw [Nat.max_eq_left (by omega)]

/-- A failing fetch that read the opcode byte `op`, and fails a read in memory. -/
inductive FetchFailure (op : Byte) : DecodeFailure Failure → Prop where
  | unreadable (a n : Nat) : FetchFailure op (.unreadable op (.memoryOutOfRange a) n)
  | imm8Unreadable (m : ModRM) (a n : Nat) : FetchFailure op (.imm8Unreadable op m (.memoryOutOfRange a) n)
  | opcodeNotImplemented : FetchFailure op (.opcodeNotImplemented op)
  | subOpcodeNotImplemented (reg : BitVec 3) (n : Nat) : FetchFailure op (.subOpcodeNotImplemented op reg n)

theorem parseModRM_error {s : State} {k : Nat} {p : Failure × Nat} (h : parseModRM s.codeSource k = .error p) :
    ∃ a, p.1 = .memoryOutOfRange a := by
  unfold parseModRM at h
  cases hb : s.codeSource.byte k with
  | error e =>
    rw [hb] at h; cases h
    exact codeSource_byte_error hb
  | ok b =>
    rw [hb] at h
    simp only [failAt, Except.mapError, bind, Except.bind] at h
    cases hs : parseSib s.codeSource (modField b) (rmField b) (k + 1) with
    | error q =>
      rw [hs] at h; cases h
      unfold parseSib at hs
      split at hs
      · cases hx : s.codeSource.byte (k + 1) with
        | error e => rw [hx] at hs; cases hs; exact codeSource_byte_error hx
        | ok c => rw [hx] at hs; cases hs
      · cases hs
    | ok q =>
      obtain ⟨sib, k1⟩ := q
      rw [hs] at h
      simp only at h
      cases hd : parseDisp s.codeSource (modField b) (rmField b) k1 with
      | ok r => rw [hd] at h; cases h
      | error r =>
        rw [hd] at h; cases h
        unfold parseDisp at hd
        split at hd
        · cases hd
        · cases hx : s.codeSource.byte k1 with
          | error e => rw [hx] at hd; cases hd; exact codeSource_byte_error hx
          | ok c => rw [hx] at hd; cases hd
        · cases hx : s.codeSource.word k1 with
          | error e => rw [hx] at hd; cases hd; exact codeSource_word_error hx
          | ok c => rw [hx] at hd; cases hd

theorem operandByte_error {s : State} {op : Byte} {f} (h : operandByte s.codeSource op = .error f) : FetchFailure op f := by
  unfold operandByte at h
  cases hx : s.codeSource.byte 1 with
  | ok b => rw [hx] at h; cases h
  | error e =>
    obtain ⟨a, rfl⟩ := codeSource_byte_error hx
    rw [hx] at h; cases h; exact .unreadable a 0

theorem operandWord_error {s : State} {op : Byte} {f} (h : operandWord s.codeSource op = .error f) : FetchFailure op f := by
  unfold operandWord at h
  cases hx : s.codeSource.word 1 with
  | ok b => rw [hx] at h; cases h
  | error e =>
    obtain ⟨a, rfl⟩ := codeSource_word_error hx
    rw [hx] at h; cases h; exact .unreadable a 0

theorem operandModRM_error {s : State} {op : Byte} {f} (h : operandModRM s.codeSource op = .error f) :
    FetchFailure op f := by
  unfold operandModRM at h
  cases hx : parseModRM s.codeSource 1 with
  | ok b => rw [hx] at h; cases h
  | error e =>
    obtain ⟨a, ha⟩ := parseModRM_error hx
    rw [hx] at h; cases h
    show FetchFailure op (.unreadable op e.1 e.2)
    rw [ha]; exact .unreadable a e.2

theorem map_eq_error {ε α β : Type} {f : α → β} {r : Except ε α} {e : ε} : r.map f = .error e ↔ r = .error e := by
  cases r <;> simp [Except.map]

theorem decodeEntry_error {s : State} {op : Byte} {e : Entry} {f} (h : decodeEntry s.codeSource op e = .error f) :
    FetchFailure op f := by
  cases e with
  | addRm32R32 | movRm32R32 | movR32Rm32 => exact operandModRM_error (map_eq_error.mp h)
  | pushR32 r | popR32 r | ret | leave => cases h
  | pushImm32 | movR32Imm32 r | callRel32 | jmpRel32 => exact operandWord_error (map_eq_error.mp h)
  | pushImm8 | jmpRel8 => exact operandByte_error (map_eq_error.mp h)
  | group83 =>
    simp only [decodeEntry, decodeGroup83] at h
    cases hm : operandModRM s.codeSource op with
    | error g => rw [hm] at h; cases h; exact operandModRM_error hm
    | ok p =>
      obtain ⟨m, n⟩ := p
      rw [hm] at h
      simp only [bind, Except.bind] at h
      split at h
      · cases hx : s.codeSource.byte n with
        | ok b => rw [hx] at h; cases h
        | error g => obtain ⟨a, rfl⟩ := codeSource_byte_error hx; rw [hx] at h; cases h; exact .imm8Unreadable m a n
      · split at h
        · cases hx : s.codeSource.byte n with
          | ok b => rw [hx] at h; cases h
          | error g => obtain ⟨a, rfl⟩ := codeSource_byte_error hx; rw [hx] at h; cases h; exact .imm8Unreadable m a n
        · cases h; exact .subOpcodeNotImplemented m.reg n
  | movRm32Imm32 =>
    simp only [decodeEntry, decodeMovRm32Imm32] at h
    cases hm : operandModRM s.codeSource op with
    | error g => rw [hm] at h; cases h; exact operandModRM_error hm
    | ok p =>
      obtain ⟨m, n⟩ := p
      rw [hm] at h
      simp only [bind, Except.bind] at h
      cases hx : s.codeSource.word n with
      | ok b => rw [hx] at h; cases h
      | error g => obtain ⟨a, rfl⟩ := codeSource_word_error hx; rw [hx] at h; cases h; exact .unreadable a n
  | groupFF =>
    simp only [decodeEntry, decodeGroupFF] at h
    cases hm : operandModRM s.codeSource op with
    | error g => rw [hm] at h; cases h; exact operandModRM_error hm
    | ok p =>
      obtain ⟨m, n⟩ := p
      rw [hm] at h
      simp only [bind, Except.bind] at h
      split at h
      · cases h
      · cases h; exact .subOpcodeNotImplemented m.reg n

/-- Where a fetch fails: at the opcode byte, because `pc` is outside memory, or after it. -/
theorem fetch_error {s : State} {f} (h : s.fetch = .error f) :
    (s.cfg.memSize ≤ s.pc.toNat ∧ f = .noOpcode (.memoryOutOfRange s.pc.toNat)) ∨
      (s.pc.toNat < s.cfg.memSize ∧ FetchFailure (s.mem.read s.pc.toNat) f) := by
  unfold State.fetch decode at h
  rw [codeSource_byte_zero] at h
  by_cases hp : s.pc.toNat < s.cfg.memSize
  · rw [if_pos hp] at h
    refine .inr ⟨hp, ?_⟩
    simp only at h
    cases hd : dispatch (s.mem.read s.pc.toNat) with
    | none => rw [hd] at h; cases h; exact .opcodeNotImplemented
    | some e => rw [hd] at h; exact decodeEntry_error h
  · rw [if_neg hp] at h
    cases h; exact .inl ⟨by omega, rfl⟩

/-- What a failing fetch leaves: registers and memory as they were, and a failure recorded with the instruction's address. -/
structure Stopped (s t : State) (op : Option Byte) : Prop where
  cfg : t.cfg = s.cfg
  regs : t.regs = s.regs
  mem : t.mem = s.mem
  run : t.run = .haltedFault
  fault : ∃ k, t.fault = some { failure := k, address := s.pc, opcode := op } ∧ ∀ i, k ≠ .registerOutOfRange i

theorem fetchFailed_stopped {s : State} {op : Byte} {f} (h : FetchFailure op f) : Stopped s (s.fetchFailed f) (some op) := by
  cases h with
  | unreadable a n => exact ⟨rfl, rfl, rfl, rfl, _, rfl, by simp⟩
  | opcodeNotImplemented => exact ⟨rfl, rfl, rfl, rfl, _, rfl, by simp⟩
  | subOpcodeNotImplemented reg n => exact ⟨rfl, rfl, rfl, rfl, _, rfl, by simp⟩
  | imm8Unreadable m a n =>
    have e := getRm32_run m (s.consume n)
    unfold State.fetchFailed
    simp only
    rw [e]
    split
    · rename_i heq
      split at heq
      · cases heq; exact ⟨rfl, rfl, rfl, rfl, _, rfl, by simp⟩
      split at heq
      · cases heq
      split at heq
      · cases heq; exact ⟨rfl, rfl, rfl, rfl, _, rfl, by simp⟩
      · cases heq
    · rename_i heq
      split at heq
      · cases heq
      split at heq
      · cases heq; exact ⟨rfl, rfl, rfl, rfl, _, rfl, by simp⟩
      split at heq
      · cases heq
      · cases heq; exact ⟨rfl, rfl, rfl, rfl, _, rfl, by simp⟩

/-- The opcode byte of a decoded instruction is the byte it was decoded from. -/
theorem opcode_of_decode {ε : Type} {src : ByteSource ε} {i : Instr} (h : decode src = .ok i) :
    src.byte 0 = .ok i.opcode := by
  obtain ⟨op, e, hb, hd, hi⟩ := decode_eq_ok.mp h
  have ho := opcode_of_dispatch hd
  rw [hb, ho]
  rw [decodeEntry_eq_ok] at hi
  cases e with
  | addRm32R32 | movRm32R32 | movR32Rm32 => obtain ⟨m, n, -, rfl⟩ := hi; rfl
  | pushR32 r | popR32 r | ret | leave => cases hi; rfl
  | pushImm32 | movR32Imm32 r | callRel32 | jmpRel32 => obtain ⟨w, -, rfl⟩ := hi; rfl
  | pushImm8 | jmpRel8 => obtain ⟨b, -, rfl⟩ := hi; rfl
  | group83 => obtain ⟨m, n, b, -, -, ⟨-, rfl⟩ | ⟨-, rfl⟩⟩ := hi <;> rfl
  | movRm32Imm32 => obtain ⟨m, n, w, -, -, rfl⟩ := hi; rfl
  | groupFF => obtain ⟨m, n, -, -, rfl⟩ := hi; rfl

/-- A fetched instruction's opcode byte stands at `pc`, inside memory. -/
theorem fetch_ok {s : State} {i : Instr} (h : s.fetch = .ok i) :
    s.pc.toNat < s.cfg.memSize ∧ i.opcode = s.mem.read s.pc.toNat := by
  have := opcode_of_decode h
  rw [codeSource_byte_zero] at this
  split at this
  · exact ⟨‹_›, (Except.ok.inj this).symm⟩
  · cases this

/-! ### A step -/

/-- The fetch, once the opcode byte is known to lie in memory. -/
theorem fetch_of_opcode {s : State} (hp : s.pc.toNat < s.cfg.memSize) :
    s.fetch = match dispatch (s.mem.read s.pc.toNat) with
      | some e => decodeEntry s.codeSource (s.mem.read s.pc.toNat) e
      | none => .error (.opcodeNotImplemented (s.mem.read s.pc.toNat)) := by
  cases hd : dispatch (s.mem.read s.pc.toNat) <;> simp [State.fetch, decode, codeSource_byte_zero, hp, hd]

/-- A step whose fetch succeeds. -/
theorem step_of_fetch {s : State} {i : Instr} (hr : s.run = .running) (h : s.fetch = .ok i) :
    step s = afterExec (exec i s) := by
  unfold step; rw [hr]; simp only [h]

/-- A step whose fetch fails. -/
theorem step_of_fetch_error {s : State} {f} (hr : s.run = .running) (h : s.fetch = .error f) :
    step s = .next (s.fetchFailed f) := by
  unfold step; rw [hr]; simp only [h]

/-- Every step of a running state: an instruction and the halt check, or a failing fetch. -/
theorem step_cases {s : State} (hr : s.run = .running) :
    (∃ i t, s.fetch = .ok i ∧ exec i s = .next t ∧ Answer s t i.opcode ∧ step s = .next t.haltCheck) ∨
    (∃ f, s.fetch = .error f ∧ step s = .next (s.fetchFailed f) ∧
      Stopped s (s.fetchFailed f) (if s.pc.toNat < s.cfg.memSize then some (s.mem.read s.pc.toNat) else none)) := by
  unfold step
  rw [hr]
  simp only
  cases hf : s.fetch with
  | ok i =>
    obtain ⟨t, ht, ha⟩ := exec_answer i s
    exact .inl ⟨i, t, rfl, ht, ha, by simp only [ht, afterExec]⟩
  | error f =>
    refine .inr ⟨f, rfl, rfl, ?_⟩
    rcases fetch_error hf with ⟨hp, rfl⟩ | ⟨hp, h⟩
    · rw [if_neg (by omega)]
      exact ⟨rfl, rfl, rfl, rfl, _, rfl, by simp⟩
    · rw [if_pos hp]; exact fetchFailed_stopped h

/-- A state whose run has ended makes no step. -/
theorem step_ended {s t : State} (h : s.run ≠ .running) : step s ≠ .next t := by
  unfold step
  cases hr : s.run with
  | running => exact absurd hr h
  | haltedNormal => simp
  | haltedFault => simp

end Sys2Proof.Machine
end

