-- ==== Sys2Proof/Machine/Observe.lean ====
section
/-! DEFINITION. What the host can observe (`70_reset_and_hazards.md` R146) beyond the fields of the state: what the reference
tool's trace line and final dump show (`49_execution_loop.md` R117). They are functions of the state, and no step reads them. -/

namespace Sys2Proof.Machine

/-- What the trace line of a step shows: `a0` and the opcode byte, which is there if it can be fetched (R117). -/
def State.traceLine (s : State) : Word × Option Byte := (s.pc, (s.read8 s.pc.toNat).toOption)

/-- What the final dump shows: the eight registers in the order of their indices, and `pc` (R117). -/
def State.dump (s : State) : List Word × Word :=
  ([s.regs.eax, s.regs.ecx, s.regs.edx, s.regs.ebx, s.regs.esp, s.regs.ebp, s.regs.esi, s.regs.edi], s.pc)

end Sys2Proof.Machine
end

