-- ==== Sys2Proof/Tests/Slice0.lean ====
section
/-! SUPPORT. The model's own tests. Words are written out from the spec's encodings, and results are those of the spec's test
vectors (`95_test_vectors.md`, named beside each test). A theorem `witness_X` shows states and operands that meet the hypotheses
of the obligation `X`, each clause's at a boundary of its range where it has one. -/

namespace Sys2Proof.Tests

open Sys2Proof.Machine

/-! ### Helpers -/

/-- What a list of bytes decodes to, and how many bytes are left. -/
def decoded (bs : List Byte) : Option (Instr × Nat) :=
  match decodeBytes bs with
  | .ok (i, rest) => some (i, rest.length)
  | .error _ => none

/-- A descriptor without SIB byte. -/
def modrm (mod : BitVec 2) (reg rm : BitVec 3) (disp : Option Word := none) : ModRM :=
  { mod := mod, reg := reg, rm := rm, sib := none, disp := disp }

/-- The start state of the spec's vectors: reset, with the bytes of one instruction at `a` and `pc` there. -/
def startAt (a : Word) (bs : List Byte) : State :=
  { State.reset with pc := a, mem := Memory.writeBytes [] a.toNat bs }

/-- The same at the default entry point. -/
def start (bs : List Byte) : State := startAt 0x7C00 bs

/-- A state with one register set. -/
def withReg (r : Reg) (v : Word) (s : State) : State := { s with regs := s.regs.set r v }

/-- A state with bytes in memory. -/
def withBytes (a : Nat) (bs : List Byte) (s : State) : State := { s with mem := s.mem.writeBytes a bs }

/-- The state after a step; the state itself where there is none. -/
def after (s : State) : State :=
  match step s with
  | .next t => t
  | .fault _ => s
  | .refused _ => s

/-- The failure that a step recorded. -/
def failure (s : State) : Option Failure := (after s).fault.map (·.failure)

/-- A word of memory after a step. -/
def wordAfter (a : Nat) (s : State) : Word := (after s).mem.readWord a

/-! ### Decoding: one word for each constructor, from `30_encoding.md` R51, R52 and R58 -/

/-- `01` then 11 000 011. -/
theorem test_decode_addRm32R32 : decoded [0x01, 0b11000011] = some (.addRm32R32 (modrm 3 0 3), 0) := by decide
/-- 01010 101. -/
theorem test_decode_pushR32 : decoded [0b01010101] = some (.pushR32 .ebp, 0) := by decide
/-- 01011 010. -/
theorem test_decode_popR32 : decoded [0b01011010] = some (.popR32 .edx, 0) := by decide
theorem test_decode_pushImm32 : decoded [0x68, 0x10, 0x7C, 0, 0] = some (.pushImm32 0x7C10, 0) := by decide
theorem test_decode_pushImm8 : decoded [0x6A, 0xFF, 0x90] = some (.pushImm8 0xFF, 1) := by decide
/-- `83` then 01 000 101: `reg` = 0, [EBP-4]. -/
theorem test_decode_addRm32Imm8 :
    decoded [0x83, 0b01000101, 0xFC, 0x03] = some (.addRm32Imm8 (modrm 1 0 5 (some 0xFFFFFFFC)) 3, 0) := by decide
/-- `83` then 11 101 100: `reg` = 5, ESP. -/
theorem test_decode_subRm32Imm8 : decoded [0x83, 0b11101100, 0x10] = some (.subRm32Imm8 (modrm 3 5 4) 0x10, 0) := by decide
/-- `89` then 00 110 101: the source ESI, [disp32]. -/
theorem test_decode_movRm32R32 :
    decoded [0x89, 0b00110101, 0x00, 0x80, 0, 0] = some (.movRm32R32 (modrm 0 6 5 (some 0x8000)), 0) := by decide
/-- `8B` then 10 000 011: EAX, [EBX+disp32]. -/
theorem test_decode_movR32Rm32 :
    decoded [0x8B, 0b10000011, 0x10, 0, 0, 0] = some (.movR32Rm32 (modrm 2 0 3 (some 0x10)), 0) := by decide
/-- 10111 110. -/
theorem test_decode_movR32Imm32 : decoded [0b10111110, 0x78, 0x56, 0x34, 0x12] = some (.movR32Imm32 .esi 0x12345678, 0) := by
  decide
theorem test_decode_ret : decoded [0xC3] = some (.ret, 0) := by decide
/-- `C7` then 11 111 000: any `reg` is accepted (R61). -/
theorem test_decode_movRm32Imm32 :
    decoded [0xC7, 0b11111000, 0x2A, 0, 0, 0] = some (.movRm32Imm32 (modrm 3 7 0) 0x2A, 0) := by decide
theorem test_decode_leave : decoded [0xC9] = some (.leave, 0) := by decide
theorem test_decode_callRel32 : decoded [0xE8, 0x05, 0, 0, 0] = some (.callRel32 5, 0) := by decide
theorem test_decode_jmpRel32 : decoded [0xE9, 0xEA, 0x83, 0xFF, 0xFF] = some (.jmpRel32 0xFFFF83EA, 0) := by decide
theorem test_decode_jmpRel8 : decoded [0xEB, 0xFE] = some (.jmpRel8 0xFE, 0) := by decide
/-- `FF` then 10 000 100 with a SIB byte: ModRM, SIB, disp32 (R55). -/
theorem test_decode_incRm32 :
    decoded [0xFF, 0b10000100, 0x24, 0x00, 0x01, 0, 0] =
      some (.incRm32 { mod := 2, reg := 0, rm := 4, sib := some 0x24, disp := some 0x100 }, 0) := by decide
/-- Vector D6: a SIB byte with base 5 adds no displacement of its own. -/
theorem test_decode_sib_has_no_displacement :
    decoded [0x8B, 0x04, 0x25, 0x00, 0x80, 0, 0] =
      some (.movR32Rm32 { mod := 0, reg := 0, rm := 4, sib := some 0x25, disp := none }, 4) := by decide
/-- Unmapped bytes, undefined sub-codes and short sequences decode to nothing (R59, R60). -/
theorem test_decode_rejects :
    decoded [0x0F, 0, 0] = none ∧ decoded [0x83, 0xC8, 1] = none ∧ decoded [0xFF, 0xC8] = none ∧
      decoded [0xE8, 0, 0, 0] = none ∧ decoded [] = none := by decide

/-- `opcode_table.json` puts the first byte in bits [15:8]: the rows of ADD r/m32, r32, SUB and RET. -/
theorem test_table_words :
    decodeTableWord 16 0x0100 = some (.addRm32R32 (modrm 0 0 0)) ∧
      decodeTableWord 16 0x8328 = some (.subRm32Imm8 (modrm 0 5 0) 0) ∧ decodeTableWord 16 0xC300 = some .ret ∧
      decodeTableWord 16 0x0F00 = none := by decide

/-- A placed word is the next instruction: the row of MOV r32, imm32 sets ECX to 0 and passes five bytes. -/
theorem test_withFetchWord :
    (after ((withReg .ecx 7 State.reset).withFetchWord 16 0xB900)).regs.ecx = 0 ∧
      (after (State.reset.withFetchWord 16 0xB900)).pc = 0x7C05 := by decide

/-! ### Extensions (R6) -/

theorem test_sext8to32 :
    ∀ b : Byte, (sext8to32 b).toNat = if b.toNat < 0x80 then b.toNat else b.toNat + 0xFFFFFF00 := by decide

theorem test_zext8to32 : ∀ b : Byte, (zext8to32 b).toNat = b.toNat := by decide

/-! ### Well-formedness: each check refuses an ill-formed term -/

theorem test_wf_sib_missing : (ModRM.wf { mod := 0, reg := 0, rm := 4, sib := none, disp := none }) = false := by decide
theorem test_wf_sib_unwanted : (ModRM.wf { mod := 3, reg := 0, rm := 4, sib := some 0, disp := none }) = false := by decide
theorem test_wf_disp_unwanted : (modrm 0 0 0 (some 1)).wf = false := by decide
theorem test_wf_disp8_missing : (modrm 1 0 0 none).wf = false := by decide
theorem test_wf_disp8_too_wide : (modrm 1 0 0 (some 0x80)).wf = false := by decide
theorem test_wf_disp32_missing : (modrm 0 0 5 none).wf = false := by decide
theorem test_wf_add_subcode : (Instr.addRm32Imm8 (modrm 3 5 0) 0).wf = false := by decide
theorem test_wf_sub_subcode : (Instr.subRm32Imm8 (modrm 3 0 0) 0).wf = false := by decide
theorem test_wf_inc_subcode : (Instr.incRm32 (modrm 3 1 0)).wf = false := by decide

/-! ### One step of each instruction -/

/-- Vector A2. -/
theorem test_add_register :
    let s := withReg .ebx 0x2A (withReg .eax 0x2A (start [0x01, 0xC3]))
    (after s).regs.ebx = 0x54 ∧ (after s).regs.eax = 0x2A ∧ (after s).pc = 0x7C02 := by decide
/-- Vector A4: the sum wraps. -/
theorem test_add_memory :
    let s := withBytes 0x8000 [0xF0, 0xFF, 0xFF, 0xFF] (withReg .ebx 0x8000 (withReg .eax 0x10 (start [0x01, 0x03])))
    wordAfter 0x8000 s = 0 ∧ (after s).regs.ebx = 0x8000 := by decide
/-- Vector K2: PUSH ESP pushes the value before the decrement. -/
theorem test_push_esp : wordAfter 0x7BFC (start [0x54]) = 0x7C00 ∧ (after (start [0x54])).regs.esp = 0x7BFC := by decide
/-- Vector K11: a partial push. -/
theorem test_push_partial :
    let s := withReg .eax 0x11223344 (withReg .esp 0x100002 (start [0x50]))
    failure s = some (.memoryOutOfRange 0x100000) ∧ (after s).regs.esp = 0xFFFFE ∧ (after s).pc = 0x7C00 ∧
      (after s).mem.read 0xFFFFE = 0x44 ∧ (after s).mem.read 0xFFFFF = 0x33 ∧ (after s).mem.read 0x100000 = 0 := by decide
/-- Vector K3. -/
theorem test_pop :
    let s := withBytes 0x7BFC [0x44, 0x33, 0x22, 0x11] (withReg .esp 0x7BFC (start [0x58]))
    (after s).regs.eax = 0x11223344 ∧ (after s).regs.esp = 0x7C00 := by decide
/-- Vector K4: POP ESP ends with the popped value. -/
theorem test_pop_esp :
    (after (withBytes 0x7BFC [0x00, 0x90, 0, 0] (withReg .esp 0x7BFC (start [0x5C])))).regs.esp = 0x9000 := by decide
/-- Vector K5. -/
theorem test_push_imm32 :
    wordAfter 0x7BFC (start [0x68, 0x10, 0x7C, 0, 0]) = 0x7C10 ∧ (after (start [0x68, 0x10, 0x7C, 0, 0])).pc = 0x7C05 := by
  decide
/-- Vector K7: extended by zeros. -/
theorem test_push_imm8 : wordAfter 0x7BFC (start [0x6A, 0xFF]) = 0xFF ∧ (after (start [0x6A, 0xFF])).pc = 0x7C02 := by decide
/-- Vector A8: the imm8 is sign-extended. -/
theorem test_add_imm8 : (after (withReg .eax 0x100 (start [0x83, 0xC0, 0x80]))).regs.eax = 0x80 := by decide
/-- Vector A13. -/
theorem test_add_imm8_memory :
    let s := withBytes 0x7BF4 [7, 0, 0, 0] (withReg .ebp 0x7BF8 (start [0x83, 0x45, 0xFC, 0x03]))
    wordAfter 0x7BF4 s = 0x0A ∧ (after s).pc = 0x7C04 := by decide
/-- Vector A10. -/
theorem test_sub_imm8 : (after (start [0x83, 0xE8, 0x80])).regs.eax = 0x80 := by decide
/-- Vector A14: the difference wraps. -/
theorem test_sub_imm8_memory :
    wordAfter 0x7BF4 (withBytes 0x7BF4 [7, 0, 0, 0] (withReg .ebp 0x7BF8 (start [0x83, 0x6D, 0xFC, 0x08]))) = 0xFFFFFFFF := by
  decide
/-- Vector M6: `reg` is the source, `rm` the destination. -/
theorem test_mov_register : (after (withReg .esp 0x7BFC (start [0x89, 0xE5]))).regs.ebp = 0x7BFC := by decide
/-- Vector M14: a partial store, with `pc` past the ModRM sequence. -/
theorem test_mov_store_partial :
    let s := withReg .eax 0xAABBCCDD (start [0x89, 0x05, 0xFE, 0xFF, 0x0F, 0x00])
    failure s = some (.memoryOutOfRange 0x100000) ∧ (after s).pc = 0x7C06 ∧ (after s).mem.read 0xFFFFE = 0xDD ∧
      (after s).mem.read 0xFFFFF = 0xCC := by decide
/-- Vector D1: the address uses the old EAX. -/
theorem test_mov_load :
    (after (withBytes 0x8000 [0xEF, 0xBE, 0xAD, 0xDE] (withReg .eax 0x8000 (start [0x8B, 0x00])))).regs.eax = 0xDEADBEEF := by
  decide
/-- Vector D4: the address wraps. -/
theorem test_mov_load_wraps :
    (after (withBytes 4 [0xAA, 0xBB, 0xCC, 0xDD] (withReg .eax 0xFFFFFFFF (start [0x8B, 0x40, 0x05])))).regs.eax = 0xDDCCBBAA := by
  decide
/-- Vector M2. -/
theorem test_mov_imm32 :
    (after (start [0xBC, 0x00, 0x80, 0, 0])).regs.esp = 0x8000 ∧ (after (start [0xBC, 0x00, 0x80, 0, 0])).pc = 0x7C05 := by decide
/-- Vector T3. -/
theorem test_ret :
    let s := withBytes 0x7BFC [0x05, 0x7C, 0, 0] (withReg .esp 0x7BFC (start [0xC3]))
    (after s).pc = 0x7C05 ∧ (after s).regs.esp = 0x7C00 ∧ (after s).run = .running := by decide
/-- Vector T11: the sentinel ends the run normally. -/
theorem test_ret_halts :
    (after (withReg .esp 0x7BFC (start [0xC3]))).run = .haltedNormal ∧ (after (withReg .esp 0x7BFC (start [0xC3]))).pc = 0 := by
  decide
/-- Vector M8: `reg` = 7 is accepted. -/
theorem test_mov_rm_imm32 : (after (start [0xC7, 0xF8, 0x2A, 0, 0, 0])).regs.eax = 0x2A := by decide
/-- Vector M10. -/
theorem test_mov_rm_imm32_memory :
    let s := withReg .ebp 0x7BF8 (start [0xC7, 0x45, 0xFC, 0x07, 0, 0, 0])
    wordAfter 0x7BF4 s = 7 ∧ (after s).pc = 0x7C07 := by decide
/-- Vector K9. -/
theorem test_leave :
    let s := withBytes 0x7BF8 [0xEF, 0xBE, 0xAD, 0xDE] (withReg .ebp 0x7BF8 (withReg .esp 0x7BE8 (start [0xC9])))
    (after s).regs.esp = 0x7BFC ∧ (after s).regs.ebp = 0xDEADBEEF ∧ (after s).pc = 0x7C01 := by decide
/-- Vector K16: ESP is already copied when the pop fails. -/
theorem test_leave_fails :
    let s := withReg .ebp 0x100000 (withReg .esp 0x7000 (start [0xC9]))
    (after s).regs.esp = 0x100000 ∧ (after s).regs.ebp = 0x100000 ∧ failure s = some (.memoryOutOfRange 0x100000) := by decide
/-- Vector T1. -/
theorem test_call :
    wordAfter 0x7BFC (start [0xE8, 0x05, 0, 0, 0]) = 0x7C05 ∧ (after (start [0xE8, 0x05, 0, 0, 0])).pc = 0x7C0A := by decide
/-- Vector T17: the rel32 is read before the push overwrites it. -/
theorem test_call_overwrites_itself :
    let s := withReg .esp 0x7C05 (start [0xE8, 0xF7, 0xFF, 0xFF, 0xFF])
    (after s).pc = 0x7BFC ∧ wordAfter 0x7C01 s = 0x7C05 := by decide
/-- Vector T10: a jump to the sentinel. -/
theorem test_jmp_rel32 :
    (after (start [0xE9, 0xFB, 0x83, 0xFF, 0xFF])).pc = 0 ∧ (after (start [0xE9, 0xFB, 0x83, 0xFF, 0xFF])).run = .haltedNormal := by
  decide
/-- Vector T5: a self-loop. -/
theorem test_jmp_rel32_self : after (start [0xE9, 0xFB, 0xFF, 0xFF, 0xFF]) = start [0xE9, 0xFB, 0xFF, 0xFF, 0xFF] := by decide
/-- Vectors T8 and T9. -/
theorem test_jmp_rel8 : (after (start [0xEB, 0x7F])).pc = 0x7C81 ∧ (after (start [0xEB, 0x80])).pc = 0x7B82 := by decide
/-- Vector A17: the carry goes through all four bytes. -/
theorem test_inc_memory :
    wordAfter 0x8000 (withBytes 0x8000 [0xFF, 0xFF, 0xFF, 0x7F] (withReg .ebx 0x8000 (start [0xFF, 0x03]))) = 0x80000000 := by decide
/-- Vector A24: a SIB form. -/
theorem test_inc_sib :
    failure (start [0xFF, 0x04, 0x24]) =
        some (.addressingNotImplemented { mod := 0, reg := 0, rm := 4, sib := some 0x24, disp := none }) ∧
      (after (start [0xFF, 0x04, 0x24])).pc = 0x7C03 := by decide

/-! ### Failing fetches -/

/-- Vector X1: nothing but `run` and `fault` changes. -/
theorem test_unmapped :
    after (start [0x0F]) = { start [0x0F] with
      run := .haltedFault
      fault := some { failure := .opcodeNotImplemented 0x0F, address := 0x7C00, opcode := some 0x0F } } := by decide
/-- Vectors A20 and A22: the sub-code is checked after the ModRM sequence and before the operand. -/
theorem test_undefined_subcode :
    failure (start [0x83, 0xC8, 0x01]) = some (.subOpcodeNotImplemented 0x83 1) ∧ (after (start [0x83, 0xC8, 0x01])).pc = 0x7C02 ∧
      failure (start [0x83, 0x0C, 0x24, 0x01]) = some (.subOpcodeNotImplemented 0x83 1) ∧
      (after (start [0x83, 0x0C, 0x24, 0x01])).pc = 0x7C03 := by decide
/-- Vectors X5 and X6: `pc` stays at the opcode of a form without ModRM, and is past the opcode of one with it. -/
theorem test_fetch_past_memory :
    failure (startAt 0xFFFFF [0xB8]) = some (.memoryOutOfRange 0x100000) ∧ (after (startAt 0xFFFFF [0xB8])).pc = 0xFFFFF ∧
      failure (startAt 0xFFFFF [0x8B]) = some (.memoryOutOfRange 0x100000) ∧ (after (startAt 0xFFFFF [0x8B])).pc = 0x100000 := by
  decide
/-- Vectors X8 and X9. -/
theorem test_fetch_immediate_past_memory :
    (after (withReg .ebp 0x8000 (startAt 0xFFFFD [0x83, 0x45, 0xFC]))).pc = 0x100000 ∧
      (after (withReg .ebp 0x8000 (startAt 0xFFFFC [0xC7, 0x45, 0x00, 0x01]))).pc = 0xFFFFF := by decide
/-- Vector X10: no opcode byte is recorded. -/
theorem test_fetch_outside_memory :
    (after (startAt 0x100000 [])).fault =
      some { failure := .memoryOutOfRange 0x100000, address := 0x100000, opcode := none } := by decide
/-- Vector X11: no halt check before the first step. -/
theorem test_no_halt_check_at_reset :
    (after (startAt 0 [0xE9, 0xFB, 0x83, 0xFF, 0xFF])).pc = 0xFFFF8400 ∧
      (after (startAt 0 [0xE9, 0xFB, 0x83, 0xFF, 0xFF])).run = .running := by decide
/-- R32 and R33: the signed readings. -/
theorem test_signed_reads :
    ((start [0xFF, 0xFF, 0xFF, 0x80]).readI8 0x7C00 matches .ok (-1)) = true ∧
      ((start [0xFF, 0xFF, 0xFF, 0xFF]).readI32 0x7C00 matches .ok (-1)) = true ∧
      ((start [0x7F]).readI8 0x7C00 matches .ok 127) = true ∧ ((start []).readI8 0x100000 matches .error _) = true := by decide
/-- R117: what the trace and the dump show. -/
theorem test_observe :
    (start [0xC3]).traceLine = (0x7C00, some 0xC3) ∧ (startAt 0x100000 []).traceLine = (0x100000, none) ∧
      (start [0xC3]).dump = ([0, 0, 0, 0, 0x7C00, 0, 0, 0], 0x7C00) := by decide
/-- R142: a program that does not fit is cut at the end of memory, and the host is told. -/
theorem test_load_truncates :
    let s := State.resetWith { Config.reference with loadBase := 0xFFFFE }
    (s.load 0x200 [1, 2, 3]).1.mem = [(0xFFFFE, 1), (0xFFFFF, 2)] ∧ (s.load 0x200 [1, 2, 3]).2 = true ∧
      (s.load 1 [1, 2]).1.mem = [(0xFFFFE, 1)] ∧ (s.load 0x200 [1, 2]).2 = false := by decide

/-! ### Witnesses: states and operands that meet the hypotheses of the obligations -/

/-- [EBP-4]. -/
def ebpLess4 : ModRM := modrm 1 0 5 (some 0xFFFFFFFC)

/-- The SIB form [ESP+0x100] of IA-32. -/
def sibForm : ModRM := { mod := 2, reg := 0, rm := 4, sib := some 0x24, disp := some 0x100 }

/-- Every hypothesis about memory holds of reset's, which is canonical; ESP and EBP at the end of memory. -/
def topOfMemory : State := withReg .ebp 0x100000 (withReg .esp 0x100000 State.reset)

/-- ESP and EBP so that a slot at them is cut by the end of memory. -/
def cutSlot : State := withReg .ebp 0x100002 (withReg .esp 0xFFFFE State.reset)

/-- Whether bytes stand at `pc`, as a Bool. -/
def codeCheck (s : State) (bs : List Byte) : Bool :=
  (List.range bs.length).all fun k =>
    decide (s.pc.toNat + k < s.cfg.memSize) && decide (bs[k]? = some (s.mem.read (s.pc.toNat + k)))

theorem codeAt_of_check {s : State} {bs : List Byte} (h : codeCheck s bs = true) : CodeAt s bs := by
  intro k b hb
  have hk : k < bs.length := (List.getElem?_eq_some_iff.mp hb).1
  have := List.all_eq_true.mp h k (List.mem_range.mpr hk)
  simp only [Bool.and_eq_true, decide_eq_true_eq] at this
  refine ⟨this.1, ?_⟩
  rw [this.2] at hb
  exact Option.some.inj hb

theorem inv_reset : State.reset.Inv :=
  ⟨by decide, by decide, by decide, by decide, by decide, by simp [State.reset, State.resetWith],
    by simp [State.reset, State.resetWith]⟩

theorem witness_DecodeOfEncodeIsIdentity :
    (Instr.incRm32 sibForm).wf = true ∧ (Instr.subRm32Imm8 (modrm 1 5 5 (some 0xFFFFFF80)) 0xFF).wf = true ∧
      (Instr.movRm32Imm32 (modrm 0 7 5 (some 0x8000)) 1).wf = true ∧ Instr.leave.wf = true := by decide

theorem witness_EncodeOfDecodeIsIdentity :
    decodeBytes [0xEB, 0xFE, 0x90] = .ok (.jmpRel8 0xFE, [0x90]) ∧ decodeBytes [0xC3] = .ok (.ret, []) := ⟨rfl, rfl⟩

theorem witness_UnmappedFirstBytesAreThoseListed : Unmapped 0xFE ∧ ¬Unmapped 0xFF ∧ Unmapped 0x02 ∧ ¬Unmapped 0x01 :=
  ⟨by decide, by decide, by decide, by decide⟩

theorem witness_WritesAreByteAtATime :
    State.reset.mem.wf = true ∧ State.reset.cfg.memSize ≤ 0x100000 ∧ 0xFFFFF < State.reset.cfg.memSize ∧
      InRange State.reset (0xFFFFC : Word).toNat ∧
      (∀ j, j < 3 → (0xFFFFD : Word).toNat + j < State.reset.cfg.memSize) ∧
      State.reset.cfg.memSize ≤ (0xFFFFD : Word).toNat + 3 ∧ State.reset.cfg.memSize ≤ (0x100000 : Word).toNat + 0 := by decide

theorem witness_WriteThenReadRoundTrip :
    State.reset.mem.wf = true ∧ (0xFFFFC : Word).toNat + 3 < State.reset.cfg.memSize ∧ 0xFFFFF < State.reset.cfg.memSize := by
  decide

theorem witness_ReadsAreBoundedAndLittleEndian :
    0xFFFFF < State.reset.cfg.memSize ∧ State.reset.cfg.memSize ≤ 0x100000 ∧
      (0xFFFFC : Word).toNat + 3 < State.reset.cfg.memSize ∧ State.reset.cfg.memSize ≤ (0xFFFFD : Word).toNat + 3 := by decide

/-- The third clause: the step from reset fails at the byte 00 (vector X2). -/
theorem witness_RegisterPort :
    readRegister 7 State.reset = .ok 0 State.reset ∧ State.reset.run = .running ∧
      step State.reset = .next { State.reset with
        run := .haltedFault
        fault := some { failure := .opcodeNotImplemented 0, address := 0x7C00, opcode := some 0 } } := ⟨rfl, rfl, rfl⟩

theorem witness_PopReadsThenIncrements :
    InRange (withReg .esp 0xFFFFC State.reset) (0xFFFFC : Word).toNat ∧ ¬InRange cutSlot cutSlot.regs.esp.toNat := by decide

/-- A slot at the end of memory, one that is cut, and one that the decrement wraps to. -/
theorem witness_PushDecrementsThenWrites :
    State.reset.mem.wf = true ∧ InRange topOfMemory (topOfMemory.regs.esp - 4).toNat ∧
      ¬InRange (withReg .esp 0x100001 State.reset) ((withReg .esp 0x100001 State.reset).regs.esp - 4).toNat ∧
      ¬InRange (withReg .esp 0 State.reset) ((withReg .esp 0 State.reset).regs.esp - 4).toNat := by decide

theorem witness_PushThenPopRestores :
    topOfMemory.mem.wf = true ∧ (topOfMemory.regs.esp - 4).toNat + 3 < topOfMemory.cfg.memSize := by decide

/-- One descriptor for each clause. -/
theorem witness_EffectiveAddressForms :
    (sibForm.mod ≠ 3 ∧ sibForm.rm = 4) ∧ ((modrm 0 0 7).mod = 0 ∧ (modrm 0 0 7).rm ≠ 4 ∧ (modrm 0 0 7).rm ≠ 5) ∧
      ((modrm 0 0 5 (some 1)).mod = 0 ∧ (modrm 0 0 5 (some 1)).rm = 5) ∧
      (ebpLess4.mod = 1 ∧ ebpLess4.rm ≠ 4 ∧ ebpLess4.disp = some 0xFFFFFFFC) := by decide

/-- Register forms, ESP as `rm` among them (`rm` = 4 with `mod` = 3 is no SIB form). -/
theorem witness_MovToRegisterCompletes : (modrm 3 7 4).mod = 3 ∧ (modrm 3 7 4).wf = true := by decide

theorem witness_MovLoadCompletes :
    ebpLess4.mod ≠ 3 ∧ ebpLess4.rm ≠ 4 ∧ ebpLess4.wf = true ∧
      InRange topOfMemory (effectiveAddress ebpLess4 topOfMemory.regs).toNat := by decide

theorem witness_MovStoreCompletes :
    topOfMemory.mem.wf = true ∧ ebpLess4.mod ≠ 3 ∧ ebpLess4.rm ≠ 4 ∧ ebpLess4.wf = true ∧
      InRange topOfMemory (effectiveAddress ebpLess4 topOfMemory.regs).toNat := by decide

theorem witness_ArithmeticOnRegisterCompletes :
    (modrm 3 0 4).mod = 3 ∧ (modrm 3 0 4).wf = true ∧ (Instr.addRm32Imm8 (modrm 3 0 4) 0x80).wf = true ∧
      (modrm 3 5 4).mod = 3 ∧ (Instr.subRm32Imm8 (modrm 3 5 4) 0x80).wf = true ∧ (Instr.incRm32 (modrm 3 0 4)).wf = true := by
  decide

/-- The clause of SUB needs `reg` = 5, the others `reg` = 0. -/
theorem witness_ArithmeticOnMemoryCompletes :
    topOfMemory.mem.wf = true ∧ ebpLess4.mod ≠ 3 ∧ ebpLess4.rm ≠ 4 ∧
      InRange topOfMemory (effectiveAddress ebpLess4 topOfMemory.regs).toNat ∧ ebpLess4.wf = true ∧
      (Instr.addRm32Imm8 ebpLess4 1).wf = true ∧ (Instr.incRm32 ebpLess4).wf = true ∧
      (modrm 1 5 5 (some 0xFFFFFFFC)).mod ≠ 3 ∧ (modrm 1 5 5 (some 0xFFFFFFFC)).rm ≠ 4 ∧
      InRange topOfMemory (effectiveAddress (modrm 1 5 5 (some 0xFFFFFFFC)) topOfMemory.regs).toNat ∧
      (Instr.subRm32Imm8 (modrm 1 5 5 (some 0xFFFFFFFC)) 1).wf = true := by decide

theorem witness_PushCompletes :
    topOfMemory.mem.wf = true ∧ InRange topOfMemory (topOfMemory.regs.esp - 4).toNat := by decide

theorem witness_PopCompletes : InRange (withReg .esp 0xFFFFC State.reset) (0xFFFFC : Word).toNat ∧ Reg.eax ≠ .esp := by decide

theorem witness_LeaveCompletes :
    InRange (withReg .ebp 0xFFFFC State.reset) (withReg .ebp 0xFFFFC State.reset).regs.ebp.toNat := by decide

theorem witness_CallCompletes :
    topOfMemory.mem.wf = true ∧ InRange topOfMemory (topOfMemory.regs.esp - 4).toNat := by decide

theorem witness_RetCompletes :
    InRange (withReg .esp 0xFFFFC State.reset) (withReg .esp 0xFFFFC State.reset).regs.esp.toNat := by decide

/-- The callee's state may be the state right after the CALL. -/
theorem witness_CallThenRetReturns :
    topOfMemory.mem.wf = true ∧ InRange topOfMemory (topOfMemory.regs.esp - 4).toNat ∧
      (match exec (.callRel32 5) topOfMemory with
        | .next t => decide (t.cfg = topOfMemory.cfg ∧ t.regs.esp = 0xFFFFC)
        | _ => false) = true := by decide

/-- A JMP rel8 that completes, as an instruction and as a step. -/
theorem witness_PcAfterEveryInstruction :
    (start [0xEB, 0x7F]).run = .running ∧ exec (.jmpRel8 0x7F) (start [0xEB, 0x7F]) = .next (after (start [0xEB, 0x7F])) ∧
      (after (start [0xEB, 0x7F])).run = .running ∧ (start [0xEB, 0x7F]).fetch = .ok (.jmpRel8 0x7F) ∧
      step (start [0xEB, 0x7F]) = .next (after (start [0xEB, 0x7F])) := ⟨rfl, rfl, rfl, rfl, rfl⟩

/-- An instruction that completes and one that fails. -/
theorem witness_OnlyTheListedRegistersChange :
    (exec (.pushImm8 1) topOfMemory matches .next _) = true ∧ (exec (.pushImm8 1) cutSlot matches .next _) = true := by decide

/-- A form that stores, one that stores nothing, and a SIB form. -/
theorem witness_OnlyTheStoredBytesChange :
    topOfMemory.mem.wf = true ∧ storeAddress (.incRm32 ebpLess4) topOfMemory = some 0xFFFFC ∧
      storeAddress (.movR32Rm32 ebpLess4) topOfMemory = none ∧ storeAddress (.incRm32 sibForm) topOfMemory = none ∧
      (exec (.incRm32 ebpLess4) topOfMemory matches .next _) = true := by decide

theorem witness_UnmappedOpcodeFailsUnchanged :
    (startAt 0xFFFFF [0x0F]).run = .running ∧ (startAt 0xFFFFF [0x0F]).pc.toNat < (startAt 0xFFFFF [0x0F]).cfg.memSize ∧
      Unmapped ((startAt 0xFFFFF [0x0F]).mem.read (startAt 0xFFFFF [0x0F]).pc.toNat) := by decide

/-- 0x83 with `reg` = 1 and a SIB byte, and 0xFF with `reg` = 6, at the end of memory. -/
theorem witness_UndefinedSubOpcodeFails :
    CodeAt (startAt 0xFFFFD [0x83, 0x0C, 0x24]) [0x83, 0x0C, 0x24] ∧ (startAt 0xFFFFD [0x83, 0x0C, 0x24]).run = .running ∧
      (startAt 0xFFFFD [0x83, 0x0C, 0x24]).cfg.Valid ∧
      parseModRM (ByteSource.ofList [0x0C, 0x24]) 0 =
        .ok ({ mod := 0, reg := 1, rm := 4, sib := some 0x24, disp := none }, 2) ∧
      CodeAt (startAt 0xFFFFE [0xFF, 0xF0]) [0xFF, 0xF0] ∧
      parseModRM (ByteSource.ofList [0xF0]) 0 = .ok (modrm 3 6 0, 1) :=
  ⟨codeAt_of_check (by decide), rfl, by decide, rfl, codeAt_of_check (by decide), rfl⟩

theorem witness_SibFormsFail :
    sibForm.mod ≠ 3 ∧ sibForm.rm = 4 ∧ (Instr.incRm32 sibForm).wf = true ∧ (Instr.movRm32Imm32 sibForm 1).wf = true ∧
      (Instr.movR32Rm32 sibForm).wf = true := by decide

/-- An operand that is cut, and one that lies outside whole. -/
theorem witness_OperandReadOutOfRangeFails :
    ebpLess4.mod ≠ 3 ∧ ebpLess4.rm ≠ 4 ∧ (Instr.incRm32 ebpLess4).wf = true ∧ (Instr.movR32Rm32 ebpLess4).wf = true ∧
      cutSlot.cfg.memSize ≤ (effectiveAddress ebpLess4 cutSlot.regs).toNat + 3 ∧
      (effectiveAddress ebpLess4 cutSlot.regs).toNat < cutSlot.cfg.memSize ∧
      (withReg .ebp 0 State.reset).cfg.memSize ≤ (effectiveAddress ebpLess4 (withReg .ebp 0 State.reset).regs).toNat + 3 := by
  decide

theorem witness_OperandWriteOutOfRangeFails :
    cutSlot.mem.wf = true ∧ ebpLess4.mod ≠ 3 ∧ ebpLess4.rm ≠ 4 ∧ ebpLess4.wf = true ∧
      cutSlot.cfg.memSize ≤ (effectiveAddress ebpLess4 cutSlot.regs).toNat + 3 := by decide

theorem witness_PushOutOfRangeFails :
    (withReg .esp 0x100001 State.reset).mem.wf = true ∧
      (withReg .esp 0x100001 State.reset).cfg.memSize ≤ ((withReg .esp 0x100001 State.reset).regs.esp - 4).toNat + 3 := by decide

theorem witness_PopOutOfRangeFails :
    cutSlot.cfg.memSize ≤ cutSlot.regs.esp.toNat + 3 ∧ cutSlot.cfg.memSize ≤ cutSlot.regs.ebp.toNat + 3 := by decide

theorem witness_FetchOutsideMemoryFails :
    (startAt 0x100000 []).run = .running ∧ (startAt 0x100000 []).cfg.memSize ≤ (startAt 0x100000 []).pc.toNat := by decide

/-- A word cut after three bytes, and a byte that is missing. -/
theorem witness_TruncatedImmediateFails :
    (startAt 0xFFFFC [0xE8]).run = .running ∧ (startAt 0xFFFFC [0xE8]).mem.read 0xFFFFC = 0xE8 ∧
      (startAt 0xFFFFC [0xE8]).cfg.memSize ≤ ((startAt 0xFFFFC [0xE8]).pc + 1).toNat + 3 ∧
      (startAt 0xFFFFF [0xEB]).pc.toNat < (startAt 0xFFFFF [0xEB]).cfg.memSize ∧
      (startAt 0xFFFFF [0xEB]).mem.read 0xFFFFF = 0xEB ∧
      (startAt 0xFFFFF [0xEB]).cfg.memSize ≤ ((startAt 0xFFFFF [0xEB]).pc + 1).toNat := by decide

/-- A missing ModRM byte, a missing SIB byte, a missing disp8, and disp32s that are cut with and without a SIB byte. -/
theorem witness_TruncatedModRMFails :
    (startAt 0xFFFFF [0x8B]).mem.read 0xFFFFF = 0x8B ∧ (startAt 0xFFFFF [0x8B]).cfg.memSize ≤ (0xFFFFF + 1 : Word).toNat ∧
      (startAt 0xFFFFE [0x8B, 0x04]).mem.read 0xFFFFF = 0x04 ∧ sibFollows (modField 0x04) (rmField 0x04) = true ∧
      State.reset.cfg.memSize ≤ (0xFFFFE + 2 : Word).toNat ∧
      dispKind (modField 0x45) (rmField 0x45) = .disp8 ∧ sibFollows (modField 0x45) (rmField 0x45) = false ∧
      dispKind (modField 0x05) (rmField 0x05) = .disp32 ∧ State.reset.cfg.memSize ≤ (0xFFFFB + BitVec.ofNat 32 2 : Word).toNat + 3 ∧
      dispKind (modField 0x84) (rmField 0x84) = .disp32 ∧ sibFollows (modField 0x84) (rmField 0x84) = true ∧
      (0xFFFFA + 2 : Word).toNat < State.reset.cfg.memSize ∧
      State.reset.cfg.memSize ≤ (0xFFFFA + BitVec.ofNat 32 3 : Word).toNat + 3 := by decide

/-- Vector X8 with a register operand, a memory operand inside memory, one outside it and a SIB form; then vector X9. -/
theorem witness_TruncatedImmediateAfterModRMFails :
    CodeAt (startAt 0xFFFFE [0x83, 0xC0]) [0x83, 0xC0] ∧ parseModRM (ByteSource.ofList [0xC0]) 0 = .ok (modrm 3 0 0, 1) ∧
      CodeAt (startAt 0xFFFFD [0x83, 0x45, 0xFC]) [0x83, 0x45, 0xFC] ∧
      parseModRM (ByteSource.ofList [0x45, 0xFC]) 0 = .ok (ebpLess4, 2) ∧
      (InRange (withReg .ebp 0x8000 State.reset) (effectiveAddress ebpLess4 (withReg .ebp 0x8000 State.reset).regs).toNat ∧
        cutSlot.cfg.memSize ≤ (effectiveAddress ebpLess4 cutSlot.regs).toNat + 3) ∧
      CodeAt (startAt 0xFFFFD [0x83, 0x04, 0x24]) [0x83, 0x04, 0x24] ∧
      State.reset.cfg.memSize ≤ (0xFFFFD + BitVec.ofNat 32 (1 + 2) : Word).toNat ∧
      CodeAt (startAt 0xFFFFC [0xC7, 0x45, 0xFC, 1]) [0xC7, 0x45, 0xFC, 1] ∧
      State.reset.cfg.memSize ≤ (0xFFFFC + BitVec.ofNat 32 (1 + 2) : Word).toNat + 3 :=
  ⟨codeAt_of_check (by decide), rfl, codeAt_of_check (by decide), rfl, by decide, codeAt_of_check (by decide), by decide,
    codeAt_of_check (by decide), by decide⟩

/-- A step that fails in its instruction, and one that fails in its fetch. -/
theorem witness_FailingStepRecordsItsInstruction :
    (step (start [0xFF, 0x04, 0x24]) matches .next _) = true ∧ (after (start [0xFF, 0x04, 0x24])).run = .haltedFault ∧
      (step (startAt 0x100000 []) matches .next _) = true ∧ (after (startAt 0x100000 [])).run = .haltedFault := by decide

theorem witness_StepRunsDecodedInstruction :
    (start [0xEB, 0xFE]).run = .running ∧ (start [0xEB, 0xFE]).cfg.Valid ∧ CodeAt (start [0xEB, 0xFE]) [0xEB, 0xFE] ∧
      decodeBytes [0xEB, 0xFE] = .ok (.jmpRel8 0xFE, []) := ⟨rfl, by decide, codeAt_of_check (by decide), rfl⟩

theorem witness_EveryRunningStepHasANextState : State.reset.run = .running := rfl

/-- An ended run; an instruction that completes elsewhere, at the sentinel, and one that fails; a fetch that fails. -/
theorem witness_RunStateTransitions :
    (after (start [0x0F])).run ≠ .running ∧
      ((start [0xEB, 0x00]).fetch = .ok (.jmpRel8 0) ∧ (after (start [0xEB, 0x00])).run = .running) ∧
      ((start [0xE9, 0xFB, 0x83, 0xFF, 0xFF]).fetch = .ok (.jmpRel32 0xFFFF83FB) ∧
        (exec (.jmpRel32 0xFFFF83FB) (start [0xE9, 0xFB, 0x83, 0xFF, 0xFF]) matches .next _) = true) ∧
      ((start [0xFF, 0x04, 0x24]).fetch =
          .ok (.incRm32 { mod := 0, reg := 0, rm := 4, sib := some 0x24, disp := none }) ∧
        (after (start [0xFF, 0x04, 0x24])).run = .haltedFault) ∧
      (start [0x0F]).fetch = .error (.opcodeNotImplemented 0x0F) := ⟨by decide, ⟨rfl, rfl⟩, ⟨rfl, rfl⟩, ⟨rfl, rfl⟩, rfl⟩

theorem witness_ConfigurationIsConstant : (step State.reset matches .next _) = true := by decide

theorem witness_ResetState : Reg.edi ≠ .esp := by decide

theorem witness_ResetMeetsInvariant :
    ({ Config.reference with memSize := 1 } : Config).Valid ∧ ({ Config.reference with memSize := 2 ^ 32 } : Config).Valid := by
  decide

theorem witness_LoadPlacesTheProgram :
    State.reset.Inv ∧ (0 < min 1 (min 0x200 (State.reset.cfg.memSize - State.reset.cfg.loadBase.toNat))) ∧
      ([0xC3] : List Byte)[0]? = some 0xC3 := ⟨inv_reset, by decide, rfl⟩

theorem witness_StepKeepsInvariant : State.reset.Inv ∧ (step State.reset matches .next _) = true := ⟨inv_reset, by decide⟩

theorem witness_RunsKeepInvariantAndStayEnded : State.reset.Inv ∧ (runFuel 1 State.reset).run ≠ .running :=
  ⟨inv_reset, by decide⟩

theorem witness_SelfJumpRunsForever :
    (start [0xEB, 0xFE]).run = .running ∧ (start [0xEB, 0xFE]).cfg.Valid ∧ CodeAt (start [0xEB, 0xFE]) [0xEB, 0xFE] ∧
      (start [0xEB, 0xFE]).pc ≠ (start [0xEB, 0xFE]).cfg.haltSentinel := ⟨rfl, by decide, codeAt_of_check (by decide), by decide⟩

/-- Program P4 of the spec: MOV [0x7C0A], 0xC0FFC0FF at 0x7C00 stores INC EAX where `pc` then stands. -/
def storeAhead : State := start [0xC7, 0x05, 0x0A, 0x7C, 0, 0, 0xFF, 0xC0, 0xFF, 0xC0]

/-- CALL of its own stack slot, which then holds the return address. -/
def callItsSlot : State := start [0xE8, 0xF7, 0xFF, 0xFF, 0xFF]

/-- A store of MOV, of a word that decodes, and a store of CALL, each at the address where `pc` then stands. -/
theorem witness_StoreIsSeenByNextFetch :
    storeAhead.mem.wf = true ∧ storeAhead.cfg.Valid ∧ storeAhead.run = .running ∧
      storeAddress (.movRm32Imm32 (modrm 0 0 5 (some 0x7C0A)) 0xC0FFC0FF) storeAhead = some 0x7C0A ∧
      storedValue (.movRm32Imm32 (modrm 0 0 5 (some 0x7C0A)) 0xC0FFC0FF) storeAhead = some 0xC0FFC0FF ∧
      InRange storeAhead (0x7C0A : Word).toNat ∧ (after storeAhead).pc = 0x7C0A ∧
      decodeBytes (bytesOf 0xC0FFC0FF) = .ok (.incRm32 (modrm 3 0 0), [0xFF, 0xC0]) ∧
      storeAhead.fetch = .ok (.movRm32Imm32 (modrm 0 0 5 (some 0x7C0A)) 0xC0FFC0FF) ∧
      (after storeAhead).pc ≠ storeAhead.cfg.haltSentinel ∧
      storeAddress (.callRel32 0xFFFFFFF7) callItsSlot = some 0x7BFC ∧
      storedValue (.callRel32 0xFFFFFFF7) callItsSlot = some 0x7C05 ∧ (after callItsSlot).pc = 0x7BFC :=
  ⟨by decide, by decide, rfl, by decide, by decide, by decide, by decide, rfl, rfl, by decide, by decide, by decide, by decide⟩

/-- Program P4: the fetch after the store gives INC EAX, where the bytes loaded were unmapped. -/
theorem test_self_modifying : ((after storeAhead).fetch matches .ok (.incRm32 _)) = true := by decide

end Sys2Proof.Tests
end

section
/-! SUPPORT. The proofs of the statements about the state (`10_state.md`): the register port (R13), and `pc` after an
instruction that completes (R17). -/

namespace Sys2Proof.Machine

/-! ### The register port by index (R13) -/

/-- Distinct indices name distinct registers. -/
theorem reg_ofIndex_ofNat_ne {i j : Nat} (hi : i < 8) (hj : j < 8) (h : j ≠ i) :
    Reg.ofIndex (BitVec.ofNat 3 j) ≠ Reg.ofIndex (BitVec.ofNat 3 i) := by
  intro e
  have hb : BitVec.ofNat 3 j = BitVec.ofNat 3 i := by simpa using congrArg Reg.index e
  have hn : j % 8 = i % 8 := by simpa using congrArg BitVec.toNat hb
  omega

theorem readRegister_ok {i : Nat} (h : i < 8) (s : State) :
    readRegister i s = .ok (s.regs.get (Reg.ofIndex (BitVec.ofNat 3 i))) s := if_pos h

theorem writeRegister_ok {i : Nat} (h : i < 8) (v : Word) (s : State) :
    writeRegister i v s = .ok () { s with regs := s.regs.set (Reg.ofIndex (BitVec.ofNat 3 i)) v } := if_pos h

theorem readRegister_error {i : Nat} (h : 8 ≤ i) (s : State) :
    readRegister i s = .error (.registerOutOfRange i) s := if_neg (by omega)

theorem writeRegister_error {i : Nat} (h : 8 ≤ i) (v : Word) (s : State) :
    writeRegister i v s = .error (.registerOutOfRange i) s := if_neg (by omega)

/-- A write to one index leaves what the port reads at another. -/
theorem readRegister_after_write_other {i j : Nat} (hi : i < 8) (hj : j < 8) (h : j ≠ i) (v w : Word) (s : State)
    (hr : readRegister j s = .ok w s) :
    readRegister j { s with regs := s.regs.set (Reg.ofIndex (BitVec.ofNat 3 i)) v } =
      .ok w { s with regs := s.regs.set (Reg.ofIndex (BitVec.ofNat 3 i)) v } := by
  rw [readRegister_ok hj] at hr ⊢
  rw [regs_get_set_other _ _ (reg_ofIndex_ofNat_ne hi hj h)]
  cases hr
  rfl

/-! ### How a step can end -/

/-- The halt check neither makes nor mends a failed run (R114). -/
theorem haltCheck_run_eq_haltedFault {s : State} : s.haltCheck.run = .haltedFault ↔ s.run = .haltedFault := by
  rw [haltCheck_run]
  split
  case isTrue h => simp [h.1]
  case isFalse => rfl

/-- What a failed step records is never `RegisterOutOfRange` (R121): neither an instruction nor a failing fetch raises it. -/
theorem step_failure_ne_registerOutOfRange {s t : State} {r : FaultRecord} (hs : s.run = .running)
    (hst : step s = .next t) (ht : t.run = .haltedFault) (hf : t.fault = some r) (i : Nat) :
    r.failure ≠ .registerOutOfRange i := by
  obtain ⟨_, u, -, -, ha, hu⟩ | ⟨f, -, hu, hstop⟩ := step_cases hs
  · cases hst.symm.trans hu
    rw [haltCheck_run_eq_haltedFault] at ht
    rw [haltCheck_fault] at hf
    obtain ⟨hr, -⟩ | ⟨-, k, hk, hne⟩ := ha.ends
    · rw [ht, hs] at hr
      cases hr
    · cases hf.symm.trans hk
      exact hne i
  · cases hst.symm.trans hu
    obtain ⟨k, hk, hne⟩ := hstop.fault
    cases hf.symm.trans hk
    exact hne i

/-- Settles O9: the port is the register file's read and write at the register of the index, and no step records its failure. -/
theorem registerPort : Obligations.RegisterPort := by
  unfold Obligations.RegisterPort
  refine ⟨fun s i v hi => ⟨⟨_, readRegister_ok hi s⟩, _, writeRegister_ok hi v s, ?_, ?_, rfl⟩,
    fun s i v hi => ⟨readRegister_error hi s, writeRegister_error hi v s⟩, ?_⟩
  · rw [readRegister_ok hi, regs_get_set_self]
  · exact fun j hj hne w hr => readRegister_after_write_other hi hj hne v w s hr
  · exact fun s t k a op hs hst ht hf i => step_failure_ne_registerOutOfRange hs hst ht hf i

/-! ### `pc` after an instruction that completes (R17) -/

/-- The answer `t` of an instruction or a step is a failure, or it completed with `pc` at `p`. -/
structure CompletesAt (p : Word) (t : State) : Prop where
  pc : t.run ≠ .haltedFault → t.pc = p

theorem completesAt_of_pc {p : Word} {t : State} (h : t.pc = p) : CompletesAt p t := ⟨fun _ => h⟩

theorem completesAt_takeFailure (p : Word) (k : Failure) (a0 : Word) (op : Option Byte) (t : State) :
    CompletesAt p (t.takeFailure k a0 op) := ⟨fun h => absurd (takeFailure_run ..) h⟩

/-- An instruction whose one memory access decides whether it completes. -/
theorem completesAt_access {c : Prop} [Decidable c] {p : Word} {t u : State} {k : Failure} {a0 : Word} {op : Option Byte}
    (h : t.pc = p) : CompletesAt p (if c then t else u.takeFailure k a0 op) := by
  split
  · exact completesAt_of_pc h
  · exact completesAt_takeFailure ..

/-- An instruction with an r/m32 operand: a register, an SIB form, a word inside memory, or one outside it. -/
theorem completesAt_operand {m : ModRM} {c : Prop} [Decidable c] {p : Word} {t u v w : State} {k l : Failure}
    {a0 a1 : Word} {op oq : Option Byte} (ht : t.pc = p) (hv : v.pc = p) :
    CompletesAt p (if m.mod = 3 then t else if m.rm = 4 then u.takeFailure k a0 op
      else if c then v else w.takeFailure l a1 oq) := by
  split
  · exact completesAt_of_pc ht
  split
  · exact completesAt_takeFailure ..
  · exact completesAt_access hv

theorem completesAt_modifyRm (m : ModRM) (op : Byte) (n : Nat) (g : Word → Word) (s : State) :
    CompletesAt (s.pc + BitVec.ofNat 32 n) (modifyRm m op n g s) := completesAt_operand rfl rfl

theorem completesAt_pushAnd (op : Byte) (v p : Word) (s : State) : CompletesAt p (pushAnd op v p s) :=
  completesAt_access rfl

/-- Every instruction that completes leaves `pc` where the table of R17 puts it. -/
theorem exec_completesAt (i : Instr) (s : State) : ∃ t, exec i s = .next t ∧ CompletesAt (pcAfter i s) t := by
  cases i with
  | addRm32R32 m => exact ⟨_, execAddRm32R32_run m s, completesAt_modifyRm ..⟩
  | addRm32Imm8 m imm => exact ⟨_, execAddRm32Imm8_run m imm s, completesAt_modifyRm ..⟩
  | subRm32Imm8 m imm => exact ⟨_, execSubRm32Imm8_run m imm s, completesAt_modifyRm ..⟩
  | incRm32 m => exact ⟨_, execIncRm32_run m s, completesAt_modifyRm ..⟩
  | movRm32R32 m => exact ⟨_, execMovRm32R32_run m s, completesAt_operand rfl rfl⟩
  | movR32Rm32 m => exact ⟨_, execMovR32Rm32_run m s, completesAt_operand rfl rfl⟩
  | movRm32Imm32 m imm => exact ⟨_, execMovRm32Imm32_run m imm s, completesAt_operand rfl rfl⟩
  | movR32Imm32 r imm => exact ⟨_, execMovR32Imm32_run r imm s, completesAt_of_pc rfl⟩
  | pushR32 r => exact ⟨_, execPushR32_run r s, completesAt_pushAnd ..⟩
  | pushImm32 imm => exact ⟨_, execPushImm32_run imm s, completesAt_pushAnd ..⟩
  | pushImm8 imm => exact ⟨_, execPushImm8_run imm s, completesAt_pushAnd ..⟩
  | popR32 r => exact ⟨_, execPopR32_run r s, completesAt_access rfl⟩
  | leave => exact ⟨_, execLeave_run s, completesAt_access rfl⟩
  | callRel32 rel => exact ⟨_, execCallRel32_run rel s, completesAt_pushAnd ..⟩
  | ret => exact ⟨_, execRet_run s, completesAt_access rfl⟩
  | jmpRel32 rel => exact ⟨_, execJmpRel32_run rel s, completesAt_of_pc rfl⟩
  | jmpRel8 rel => exact ⟨_, execJmpRel8_run rel s, completesAt_of_pc rfl⟩

theorem completesAt_haltCheck {p : Word} {t : State} (h : CompletesAt p t) : CompletesAt p t.haltCheck := by
  refine ⟨fun hr => ?_⟩
  rw [haltCheck_pc]
  exact h.pc fun e => hr (haltCheck_run_eq_haltedFault.mpr e)

/-- Settles O26: R17's table holds of every meaning, and the halt check after it does not move `pc`. -/
theorem pcAfterEveryInstruction : Obligations.PcAfterEveryInstruction := by
  unfold Obligations.PcAfterEveryInstruction
  intro i s t hs
  obtain ⟨u, hu, hpc⟩ := exec_completesAt i s
  constructor
  · intro ht hrun
    cases hu.symm.trans ht
    exact hpc.pc (by simp [hrun])
  · intro hf hst
    rw [step_of_fetch hs hf, hu] at hst
    cases hst
    exact (completesAt_haltCheck hpc).pc

end Sys2Proof.Machine
end

section
/-! SUPPORT. The proof of the statement about memory (`20_memory.md`): a write read back (R37). -/

namespace Sys2Proof.Machine

/-! ### The byte port (R32, R35) -/

theorem read8_ok {s : State} {a : Nat} (h : a < s.cfg.memSize) : s.read8 a = .ok (s.mem.read a) := if_pos h

theorem memWrite8_ok {s : State} {a : Nat} (v : Byte) (h : a < s.cfg.memSize) :
    memWrite8 a v s = .ok () { s with mem := s.mem.write a v } := if_pos h

theorem read_write_self {m : Memory} (a : Nat) (v : Byte) (h : m.wf = true) : (m.write a v).read a = v := by
  rw [read_write a a v h, if_pos rfl]

theorem read_write_other {m : Memory} {a b : Nat} (v : Byte) (h : m.wf = true) (hb : b ≠ a) :
    (m.write a v).read b = m.read b := by
  rw [read_write a b v h, if_neg hb]

/-! ### A write read back (R37) -/

/-- A word: the state after the write holds it in its four bytes, and the capacity the read is checked against is the same. -/
theorem memWrite32_then_memRead32 {s : State} {a : Word} (v : Word) (hm : s.mem.wf = true) (ha : InRange s a.toNat) :
    ∃ t, memWrite32 a v s = .ok () t ∧ memRead32 a t = .ok v t ∧ StoredWord s t a.toNat v := by
  refine ⟨_, memWrite32_ok ha, ?_, storedWord_storeBelow hm ha rfl⟩
  rw [memRead32_ok (s := { s with mem := s.mem.storeBelow s.cfg.memSize a.toNat v }) ha,
    readWord_storeBelow _ _ _ hm ha]

theorem memWrite8_then_read8 {s : State} {a : Nat} (v : Byte) (hm : s.mem.wf = true) (ha : a < s.cfg.memSize) :
    ∃ t, memWrite8 a v s = .ok () t ∧ t.read8 a = .ok v ∧ ∀ b, b ≠ a → t.mem.read b = s.mem.read b := by
  refine ⟨_, memWrite8_ok v ha, ?_, fun b hb => read_write_other v hm hb⟩
  rw [read8_ok (s := { s with mem := s.mem.write a v }) ha, read_write_self a v hm]

/-- Settles O7: the word and the byte written are read back from canonical memory, and no other byte changes. -/
theorem writeThenReadRoundTrip : Obligations.WriteThenReadRoundTrip := by
  unfold Obligations.WriteThenReadRoundTrip
  refine fun s hm => ⟨fun a v ha => ?_, fun a v ha => memWrite8_then_read8 v hm ha⟩
  obtain ⟨t, hw, hr, -, hframe⟩ := memWrite32_then_memRead32 v hm ha
  exact ⟨t, hw, hr, fun b hb => hframe b (by omega)⟩

end Sys2Proof.Machine
end

section
/-! SUPPORT. The proofs of the statements about the encoding (`30_encoding.md`): the ModRM sequence (R52 to R54), and the step
on an unmapped first byte (R60). -/

namespace Sys2Proof

/-! ### The fields of a ModRM byte as numbers (R52) -/

theorem modField_toNat (b : Byte) : (modField b).toNat = b.toNat / 64 := by
  simp only [modField, BitVec.extractLsb'_toNat, Nat.shiftRight_eq_div_pow]
  omega

theorem regField_toNat (b : Byte) : (regField b).toNat = b.toNat / 8 % 8 := by
  simp only [regField, BitVec.extractLsb'_toNat, Nat.shiftRight_eq_div_pow]

theorem rmField_toNat (b : Byte) : (rmField b).toNat = b.toNat % 8 := by
  simp only [rmField, BitVec.extractLsb'_toNat, Nat.shiftRight_zero]

/-! ### What follows a ModRM byte (R53, R54) -/

theorem sibFollows_iff {mod : BitVec 2} {rm : BitVec 3} : sibFollows mod rm = true ↔ mod ≠ 3 ∧ rm = 4 := by
  simp [sibFollows]

theorem dispKind_eq_disp32 {mod : BitVec 2} {rm : BitVec 3} :
    dispKind mod rm = .disp32 ↔ mod = 2 ∨ (mod = 0 ∧ rm = 5) := by
  revert mod rm; decide

theorem dispKind_eq_disp8 {mod : BitVec 2} {rm : BitVec 3} : dispKind mod rm = .disp8 ↔ mod = 1 := by
  revert mod rm; decide

theorem dispKind_eq_absent {mod : BitVec 2} {rm : BitVec 3} :
    dispKind mod rm = .absent ↔ mod = 3 ∨ (mod = 0 ∧ rm ≠ 5) := by
  revert mod rm; decide

section
variable {ε : Type} {src : ByteSource ε} {k : Nat}

theorem parseSib_present {mod : BitVec 2} {rm : BitVec 3} {b : Byte} (h : sibFollows mod rm = true)
    (hb : src.byte k = .ok b) : parseSib src mod rm k = .ok (some b, k + 1) := by
  rw [parseSib_eq_ok, if_pos h]
  exact ⟨b, rfl, hb, rfl⟩

theorem parseSib_absent {mod : BitVec 2} {rm : BitVec 3} (h : ¬sibFollows mod rm = true) :
    parseSib src mod rm k = .ok (none, k) := by
  rw [parseSib_eq_ok, if_neg h]
  exact ⟨rfl, rfl⟩

/-- Where the source has enough bytes the displacement parses, to the reading of its kind. -/
theorem parseDisp_of_reads {c : Byte} {w : Word} (mod : BitVec 2) (rm : BitVec 3) (hb : src.byte k = .ok c)
    (hw : src.word k = .ok w) :
    ∃ disp n, parseDisp src mod rm k = .ok (disp, n) ∧
      (dispKind mod rm = .disp32 → disp = some w ∧ n = k + 4) ∧
      (dispKind mod rm = .disp8 → disp = some (sext8to32 c) ∧ n = k + 1) ∧
      (dispKind mod rm = .absent → disp = none ∧ n = k) := by
  simp only [parseDisp_eq_ok]
  cases dispKind mod rm with
  | absent => exact ⟨none, k, ⟨rfl, rfl⟩, nofun, nofun, fun _ => ⟨rfl, rfl⟩⟩
  | disp8 => exact ⟨_, _, ⟨c, rfl, hb, rfl⟩, nofun, fun _ => ⟨rfl, rfl⟩, nofun⟩
  | disp32 => exact ⟨_, _, ⟨w, rfl, hw, rfl⟩, fun _ => ⟨rfl, rfl⟩, nofun, nofun⟩

/-- The parser's answer, put together from its three parts. -/
theorem parseModRM_of_parts {b : Byte} {sib : Option Byte} {disp : Option Word} {k1 n : Nat} (hb : src.byte k = .ok b)
    (hs : parseSib src (modField b) (rmField b) (k + 1) = .ok (sib, k1))
    (hd : parseDisp src (modField b) (rmField b) k1 = .ok (disp, n)) :
    parseModRM src k =
      .ok ({ mod := modField b, reg := regField b, rm := rmField b, sib := sib, disp := disp }, n) := by
  refine parseModRM_eq_ok.mpr ⟨k1, ?_, hs, hd⟩
  rw [hb, ModRM.byte, modrm_byte_fields]

end

/-- Settles O5: the displacement stands after the SIB byte where R53 takes one, else right after the ModRM byte, and in each
place its kind is that of R54. -/
theorem modRMSequenceIsParsedAsStated : Obligations.ModRMSequenceIsParsedAsStated := by
  unfold Obligations.ModRMSequenceIsParsedAsStated
  intro b b1 b2 b3 b4 b5 rest
  by_cases hf : sibFollows (modField b) (rmField b) = true
  · obtain ⟨hmod, hrm⟩ := sibFollows_iff.mp hf
    obtain ⟨disp, n, hd, h32, h8, h0⟩ :=
      parseDisp_of_reads (src := ByteSource.ofList (b :: b1 :: b2 :: b3 :: b4 :: b5 :: rest)) (k := 2)
        (modField b) (rmField b) rfl rfl
    refine ⟨_, n, parseModRM_of_parts rfl (parseSib_present hf rfl) hd, modField_toNat b, regField_toNat b,
      rmField_toNat b, fun _ => ⟨rfl, ?_, ?_, ?_⟩, fun h => absurd hrm (h.resolve_left hmod)⟩
    · exact fun h => h32 (dispKind_eq_disp32.mpr (.inl h))
    · exact fun h => h8 (dispKind_eq_disp8.mpr h)
    · exact fun h => h0 (dispKind_eq_absent.mpr (.inr ⟨h, by simp [hrm]⟩))
  · obtain ⟨disp, n, hd, h32, h8, h0⟩ :=
      parseDisp_of_reads (src := ByteSource.ofList (b :: b1 :: b2 :: b3 :: b4 :: b5 :: rest)) (k := 1)
        (modField b) (rmField b) rfl rfl
    refine ⟨_, n, parseModRM_of_parts rfl (parseSib_absent hf) hd, modField_toNat b, regField_toNat b,
      rmField_toNat b, fun h => absurd (sibFollows_iff.mpr h) hf, fun _ => ⟨rfl, ?_, ?_, ?_⟩⟩
    · exact fun h => h32 (dispKind_eq_disp32.mpr h)
    · exact fun h => h8 (dispKind_eq_disp8.mpr h)
    · exact fun h => h0 (dispKind_eq_absent.mpr h)

end Sys2Proof

namespace Sys2Proof.Machine

/-! ### An unmapped first byte (R60, R112) -/

theorem fetch_of_unmapped {s : State} (hp : s.pc.toNat < s.cfg.memSize) (hu : Unmapped (s.mem.read s.pc.toNat)) :
    s.fetch = .error (.opcodeNotImplemented (s.mem.read s.pc.toNat)) := by
  rw [fetch_of_opcode hp, dispatch_eq_none.mpr hu]

/-- Settles O29: the fetch fails at the dispatch, with `pc` still at the opcode, so only `run` and `fault` are written. -/
theorem unmappedOpcodeFailsUnchanged : Obligations.UnmappedOpcodeFailsUnchanged := by
  unfold Obligations.UnmappedOpcodeFailsUnchanged
  intro s hr hp hu
  exact ⟨_, step_of_fetch_error hr (fetch_of_unmapped hp hu), ⟨rfl, rfl, rfl⟩, rfl, rfl, rfl⟩

end Sys2Proof.Machine
end

section
/-! SUPPORT. The proofs of the statements about the stack primitives (`43_stack.md`): `Pop` (R96), and `Pop` after `Push`
(R102). -/

namespace Sys2Proof.Machine

/-! ### Setting a register -/

theorem sameRegsBut_of_regs_set {s t : State} {r : Reg} {v : Word} (h : t.regs = s.regs.set r v) :
    SameRegsBut s t [r] := fun q hq => by
  rw [h, regs_get_set_other _ _ fun e => hq (List.mem_singleton.mpr e)]

@[simp] theorem regs_set_set (g : Regs) (r : Reg) (v w : Word) : (g.set r v).set r w = g.set r w := by cases r <;> rfl

@[simp] theorem regs_set_get (g : Regs) (r : Reg) : g.set r (g.get r) = g := by cases r <;> rfl

/-! ### The stack primitives by case (R95, R96) -/

/-- The state after a `Push` of `v`: ESP is decremented, and the slot holds what of `v` lies inside memory. -/
def afterPush (v : Word) (s : State) : State :=
  { s with
    regs := s.regs.set .esp (s.regs.esp - 4)
    mem := s.mem.storeBelow s.cfg.memSize (s.regs.esp - 4).toNat v }

theorem push_ok (v : Word) {s : State} (h : InRange s (s.regs.esp - 4).toNat) : push v s = .ok () (afterPush v s) := by
  rw [push_run, if_pos h, afterPush]

theorem pop_ok {s : State} (h : InRange s s.regs.esp.toNat) :
    pop s = .ok (s.mem.readWord s.regs.esp.toNat) { s with regs := s.regs.set .esp (s.regs.esp + 4) } := by
  rw [pop_run, if_pos h]

theorem pop_error {s : State} (h : ¬InRange s s.regs.esp.toNat) :
    pop s = .error (.memoryOutOfRange (firstBad s.cfg.memSize s.regs.esp.toNat)) s := by rw [pop_run, if_neg h]

/-- Settles O10: a `Pop` that reads its slot sets ESP alone, and one that does not stops at the read. -/
theorem popReadsThenIncrements : Obligations.PopReadsThenIncrements := by
  unfold Obligations.PopReadsThenIncrements
  intro s
  constructor
  · exact fun h => ⟨_, pop_ok h, regs_get_set_self s.regs .esp _, sameRegsBut_of_regs_set rfl, rfl⟩
  · exact fun h => ⟨_, pop_error h⟩

/-! ### Push, then pop (R102) -/

/-- ESP decremented by a push and incremented by a pop is as it was, also where the decrement wraps. -/
theorem regs_set_esp_sub_add (g : Regs) : (g.set .esp (g.esp - 4)).set .esp (g.esp - 4 + 4) = g := by
  rw [regs_set_set, BitVec.sub_add_cancel]
  exact regs_set_get g .esp

/-- The slot a push stored whole is what the pop after it reads, and the pop gives ESP back. -/
theorem pop_afterPush {s : State} (v : Word) (hm : s.mem.wf = true) (h : InRange s (s.regs.esp - 4).toNat) :
    pop (afterPush v s) = .ok v { afterPush v s with regs := s.regs } := by
  have hslot : (afterPush v s).mem.readWord (afterPush v s).regs.esp.toNat = v := readWord_storeBelow _ _ _ hm h
  have hregs : (afterPush v s).regs.set .esp ((afterPush v s).regs.esp + 4) = s.regs := regs_set_esp_sub_add _
  rw [pop_ok (s := afterPush v s) h, hslot, hregs]

/-- Settles O12: the pop reads the slot that the push stored whole, at the same ESP, and leaves memory alone. -/
theorem pushThenPopRestores : Obligations.PushThenPopRestores := by
  unfold Obligations.PushThenPopRestores
  exact fun s v hm h => ⟨_, _, push_ok v h, pop_afterPush v hm h, rfl, storedWord_storeBelow hm h rfl⟩

end Sys2Proof.Machine
end

section
/-! SUPPORT. The proof of the statement about control transfer (`44_control_transfer.md`): the callee's RET after a CALL
(R108). -/

namespace Sys2Proof.Machine

/-! ### CALL and RET that reach their slot (R104, R105) -/

theorem exec_callRel32_ok (rel : Word) {s : State} (h : InRange s (s.regs.esp - 4).toNat) :
    exec (.callRel32 rel) s = .next { afterPush (s.pc + 5) s with pc := s.pc + 5 + rel } := by
  rw [exec, execCallRel32_run, pushAnd, if_pos h, afterPush]

theorem exec_ret_ok {s : State} (h : InRange s s.regs.esp.toNat) :
    exec .ret s =
      .next { s with pc := s.mem.readWord s.regs.esp.toNat, regs := s.regs.set .esp (s.regs.esp + 4) } := by
  rw [exec, execRet_run, if_pos h]

/-! ### The slot between them (R108) -/

/-- RET at the slot a CALL pushed: the word it reads is the return address, and its increment undoes the decrement. -/
theorem exec_ret_of_slot {u : State} {e ret : Word} (hr : InRange u (e - 4).toNat) (he : u.regs.esp = e - 4)
    (hslot : u.mem.readWord (e - 4).toNat = ret) :
    exec .ret u = .next { u with pc := ret, regs := u.regs.set .esp e } := by
  rw [exec_ret_ok (by rwa [he]), he, hslot, BitVec.sub_add_cancel]

/-- Settles O25: the CALL stores the return address whole in its slot, and any state with that ESP and those four bytes reads
it back. -/
theorem callThenRetReturns : Obligations.CallThenRetReturns := by
  unfold Obligations.CallThenRetReturns
  intro rel s hm h
  have hpushed : (afterPush (s.pc + 5) s).mem.readWord (s.regs.esp - 4).toNat = s.pc + 5 := readWord_storeBelow _ _ _ hm h
  refine ⟨_, exec_callRel32_ok rel h, sameRegsBut_of_regs_set rfl, hpushed, fun u hcfg hesp hkept => ?_⟩
  replace hesp : u.regs.esp = s.regs.esp - 4 := hesp
  rw [hesp] at hkept
  have hslot : u.mem.readWord (s.regs.esp - 4).toNat = s.pc + 5 := (readWord_congr hkept).trans hpushed
  exact ⟨_, exec_ret_of_slot (by rwa [InRange, hcfg]) hesp hslot, rfl, regs_get_set_self u.regs .esp _,
    sameRegsBut_of_regs_set rfl, fun _ => rfl⟩

end Sys2Proof.Machine
end

section
/-! SUPPORT. The proof of the statement about the execution loop (`49_execution_loop.md`): the run states and their transitions
(R115). -/

namespace Sys2Proof.Machine

/-! ### The halt check by case (R114) -/

theorem haltCheck_at_sentinel {u : State} (hr : u.run = .running) (hp : u.pc = u.cfg.haltSentinel) :
    u.haltCheck = { u with run := .haltedNormal } := if_pos ⟨hr, hp⟩

theorem haltCheck_away_from_sentinel {u : State} (hp : u.pc ≠ u.cfg.haltSentinel) : u.haltCheck = u :=
  if_neg fun h => hp h.2

theorem haltCheck_of_not_running {u : State} (hr : u.run ≠ .running) : u.haltCheck = u := if_neg fun h => hr h.1

/-! ### Runs and steps by how they end -/

/-- Fuel does not move a run that has ended (R116). -/
theorem runFuel_of_ended {s : State} (h : s.run ≠ .running) (n : Nat) : runFuel n s = s := by
  cases n with
  | zero => rfl
  | succ n =>
    rw [runFuel]
    split
    case h_1 t ht => exact absurd ht (step_ended h)
    case h_2 => rfl
    case h_3 => rfl

theorem step_of_exec {s u : State} {i : Instr} (hr : s.run = .running) (hf : s.fetch = .ok i) (hu : exec i s = .next u) :
    step s = .next u.haltCheck := by rw [step_of_fetch hr hf, hu, afterExec]

theorem answer_of_exec {s u : State} {i : Instr} (hu : exec i s = .next u) : Answer s u i.opcode := by
  obtain ⟨t, ht, ha⟩ := exec_answer i s
  cases hu.symm.trans ht
  exact ha

/-- The answer of an instruction from a running state tells by `run` whether it completed or failed. -/
theorem exec_completes_or_records {s u : State} {i : Instr} (hr : s.run = .running) (hu : exec i s = .next u) :
    (u.run = .running ∧ u.fault = s.fault) ∨ (u.run = .haltedFault ∧ ∃ r, u.fault = some r) := by
  obtain ⟨hrun, hfault⟩ | ⟨hrun, _, hk, -⟩ := (answer_of_exec hu).ends
  · exact .inl ⟨hrun.trans hr, hfault⟩
  · exact .inr ⟨hrun, _, hk⟩

/-- A fetch that fails ends the run with a record (R111, R112). -/
theorem step_fails_of_fetch_error {s : State} {f : DecodeFailure Failure} (hr : s.run = .running) (hf : s.fetch = .error f) :
    ∃ t, step s = .next t ∧ t.run = .haltedFault ∧ ∃ r, t.fault = some r := by
  obtain ⟨i, _, hi, -⟩ | ⟨_, -, hst, hstop⟩ := step_cases hr
  · cases hf.symm.trans hi
  · obtain ⟨_, hk, -⟩ := hstop.fault
    exact ⟨_, hst, hstop.run, _, hk⟩

/-- Settles O43: the halt check alone turns a completed step's `running` into a normal end, a failure passes through it, and an
ended state has no step to make. -/
theorem runStateTransitions : Obligations.RunStateTransitions := by
  unfold Obligations.RunStateTransitions
  refine ⟨fun cfg => ⟨rfl, rfl⟩, fun s n h => ⟨fun t => step_ended h, runFuel_of_ended h n⟩, fun s u i hr hf hu => ?_,
    fun s f hr hf => step_fails_of_fetch_error hr hf⟩
  rw [step_of_exec hr hf hu, ← (answer_of_exec hu).cfg]
  obtain ⟨hrun, hfault⟩ | ⟨hrun, hrec⟩ := exec_completes_or_records hr hu
  · refine ⟨fun _ hp => ⟨?_, hfault⟩, fun _ hp => ⟨?_, hfault⟩, fun h => absurd hrun h⟩
    · rw [haltCheck_away_from_sentinel hp]
    · rw [haltCheck_at_sentinel hrun hp]
  · have hend : u.run ≠ .running := by simp [hrun]
    refine ⟨fun h => absurd h hend, fun h => absurd h hend, fun _ => ⟨?_, hrun, hrec⟩⟩
    rw [haltCheck_of_not_running hend]

end Sys2Proof.Machine
end

section
/-! SUPPORT. The proofs of the statements about the decoder and the encoder (`30_encoding.md`): each undoes the other, the first
bytes that begin no instruction (R60), and words written out from the encoding tables. -/

namespace Sys2Proof

/-! ### The entry of an instruction (R58) -/

/-- The entry of the dispatch table that an instruction's opcode selects (R58, R59). -/
def Instr.entry : Instr → Entry
  | .addRm32R32 _ => .addRm32R32
  | .pushR32 r => .pushR32 r
  | .popR32 r => .popR32 r
  | .pushImm32 _ => .pushImm32
  | .pushImm8 _ => .pushImm8
  | .addRm32Imm8 _ _ => .group83
  | .subRm32Imm8 _ _ => .group83
  | .movRm32R32 _ => .movRm32R32
  | .movR32Rm32 _ => .movR32Rm32
  | .movR32Imm32 r _ => .movR32Imm32 r
  | .ret => .ret
  | .movRm32Imm32 _ _ => .movRm32Imm32
  | .leave => .leave
  | .callRel32 _ => .callRel32
  | .jmpRel32 _ => .jmpRel32
  | .jmpRel8 _ => .jmpRel8
  | .incRm32 _ => .groupFF

theorem opcode_eq_entry_opcode (i : Instr) : i.opcode = i.entry.opcode := by cases i <;> rfl

theorem dispatch_instr_opcode (i : Instr) : dispatch i.opcode = some i.entry :=
  dispatch_eq_some.mpr (opcode_eq_entry_opcode i)

/-! ### Decoding what was encoded -/

theorem encode_byte_zero (i : Instr) (rest : List Byte) :
    (ByteSource.ofList (encode i ++ rest)).byte 0 = .ok i.opcode := by cases i <;> rfl

/-- The number of bytes of an encoding is the length that the decoder counts (R51). -/
theorem encode_length {i : Instr} (h : i.wf = true) : (encode i).length = i.length := by
  have key : Laws.EncodedLength.Statement i := by
    cases i with
    | addRm32R32 m => exact Laws.EncodedLength.addRm32R32 m
    | pushR32 r => exact Laws.EncodedLength.pushR32 r
    | popR32 r => exact Laws.EncodedLength.popR32 r
    | pushImm32 imm => exact Laws.EncodedLength.pushImm32 imm
    | pushImm8 imm => exact Laws.EncodedLength.pushImm8 imm
    | addRm32Imm8 m imm => exact Laws.EncodedLength.addRm32Imm8 m imm
    | subRm32Imm8 m imm => exact Laws.EncodedLength.subRm32Imm8 m imm
    | movRm32R32 m => exact Laws.EncodedLength.movRm32R32 m
    | movR32Rm32 m => exact Laws.EncodedLength.movR32Rm32 m
    | movR32Imm32 r imm => exact Laws.EncodedLength.movR32Imm32 r imm
    | ret => exact Laws.EncodedLength.ret
    | movRm32Imm32 m imm => exact Laws.EncodedLength.movRm32Imm32 m imm
    | leave => exact Laws.EncodedLength.leave
    | callRel32 rel => exact Laws.EncodedLength.callRel32 rel
    | jmpRel32 rel => exact Laws.EncodedLength.jmpRel32 rel
    | jmpRel8 rel => exact Laws.EncodedLength.jmpRel8 rel
    | incRm32 m => exact Laws.EncodedLength.incRm32 m
  exact (key h).1

/-- The ModRM sequence, and the byte that stands after it. -/
theorem parseModRM_then_byte {m : ModRM} (op b : Byte) (ys : List Byte) (h : m.wf = true) :
    parseModRM (ByteSource.ofList (op :: (m.encode ++ [b] ++ ys))) 1 = .ok (m, 1 + m.length) ∧
      (ByteSource.ofList (op :: (m.encode ++ [b] ++ ys))).byte (1 + m.length) = .ok b := by
  rw [List.append_assoc]
  refine ⟨parseModRM_encode op _ h, ofList_byte_after (op :: m.encode) ys b ?_⟩
  rw [List.length_cons, modrm_encode_length h, Nat.add_comm]

/-- The ModRM sequence, and the word that stands after it. -/
theorem parseModRM_then_word {m : ModRM} (op : Byte) (w : Word) (ys : List Byte) (h : m.wf = true) :
    parseModRM (ByteSource.ofList (op :: (m.encode ++ bytesOf w ++ ys))) 1 = .ok (m, 1 + m.length) ∧
      (ByteSource.ofList (op :: (m.encode ++ bytesOf w ++ ys))).word (1 + m.length) = .ok w := by
  rw [List.append_assoc]
  refine ⟨parseModRM_encode op _ h, ofList_word_after (op :: m.encode) ys w ?_⟩
  rw [List.length_cons, modrm_encode_length h, Nat.add_comm]

/-- After the opcode the entry reads back every operand where the encoder put it. -/
theorem decodeEntry_encode {i : Instr} (rest : List Byte) (h : i.wf = true) :
    decodeEntry (ByteSource.ofList (encode i ++ rest)) i.opcode i.entry = .ok i := by
  rw [decodeEntry_eq_ok]
  cases i with
  | addRm32R32 m | movRm32R32 m | movR32Rm32 m => exact ⟨m, _, parseModRM_encode _ rest h, rfl⟩
  | pushR32 | popR32 | ret | leave => rfl
  | pushImm32 w | movR32Imm32 _ w | callRel32 w | jmpRel32 w => exact ⟨w, ofList_word_after [_] rest w rfl, rfl⟩
  | pushImm8 b | jmpRel8 b => exact ⟨b, rfl, rfl⟩
  | addRm32Imm8 m b =>
    obtain ⟨hm, hr⟩ : m.wf = true ∧ m.reg = 0 := by simpa [Instr.wf] using h
    obtain ⟨hp, hb⟩ := parseModRM_then_byte 0x83 b rest hm
    exact ⟨m, _, b, hp, hb, .inl ⟨hr, rfl⟩⟩
  | subRm32Imm8 m b =>
    obtain ⟨hm, hr⟩ : m.wf = true ∧ m.reg = 5 := by simpa [Instr.wf] using h
    obtain ⟨hp, hb⟩ := parseModRM_then_byte 0x83 b rest hm
    exact ⟨m, _, b, hp, hb, .inr ⟨hr, rfl⟩⟩
  | movRm32Imm32 m w =>
    obtain ⟨hp, hw⟩ := parseModRM_then_word 0xC7 w rest h
    exact ⟨m, _, w, hp, hw, rfl⟩
  | incRm32 m =>
    obtain ⟨hm, hr⟩ : m.wf = true ∧ m.reg = 0 := by simpa [Instr.wf] using h
    exact ⟨m, _, parseModRM_encode _ rest hm, hr, rfl⟩

/-- Settles O2: the opcode selects the instruction's entry, the entry reads back each operand, and the length counted is the
number of bytes encoded. -/
theorem decodeOfEncodeIsIdentity : Obligations.DecodeOfEncodeIsIdentity := by
  unfold Obligations.DecodeOfEncodeIsIdentity
  intro i rest h
  refine decodeBytes_eq_ok.mpr ⟨decode_eq_ok.mpr
    ⟨i.opcode, i.entry, encode_byte_zero i rest, dispatch_instr_opcode i, decodeEntry_encode rest h⟩, ?_⟩
  rw [← encode_length h, List.drop_left]

/-! ### Encoding what was decoded -/

/-- What an entry read after the opcode is well-formed, and the encoder puts the same bytes after the same opcode. -/
theorem decodeEntry_ofList {bs : List Byte} {op : Byte} {e : Entry} {i : Instr}
    (h : decodeEntry (ByteSource.ofList bs) op e = .ok i) :
    i.wf = true ∧ e.opcode :: bs.drop 1 = encode i ++ bs.drop i.length := by
  rw [decodeEntry_eq_ok] at h
  cases e with
  | addRm32R32 | movRm32R32 | movR32Rm32 =>
    obtain ⟨m, n, hp, rfl⟩ := h
    obtain ⟨hm, rfl, hd⟩ := parseModRM_ofList.mp hp
    exact ⟨hm, congrArg _ hd⟩
  | pushR32 | popR32 | ret | leave => subst h; exact ⟨rfl, rfl⟩
  | pushImm32 | movR32Imm32 | callRel32 | jmpRel32 =>
    obtain ⟨w, hw, rfl⟩ := h
    exact ⟨rfl, congrArg _ (ofList_word_eq_ok.mp hw)⟩
  | pushImm8 | jmpRel8 =>
    obtain ⟨b, hb, rfl⟩ := h
    exact ⟨rfl, congrArg _ (ofList_byte_eq_ok.mp hb)⟩
  | group83 =>
    obtain ⟨m, n, b, hp, hb, hi⟩ := h
    obtain ⟨hm, rfl, hd⟩ := parseModRM_ofList.mp hp
    have hbytes : bs.drop 1 = m.encode ++ [b] ++ bs.drop (2 + m.length) := by
      rw [hd, ofList_byte_eq_ok.mp hb, show 1 + m.length + 1 = 2 + m.length by omega, List.append_assoc]
      rfl
    obtain ⟨hr, rfl⟩ | ⟨hr, rfl⟩ := hi
    · exact ⟨by simp [Instr.wf, hm, hr], congrArg _ hbytes⟩
    · exact ⟨by simp [Instr.wf, hm, hr], congrArg _ hbytes⟩
  | movRm32Imm32 =>
    obtain ⟨m, n, w, hp, hw, rfl⟩ := h
    obtain ⟨hm, rfl, hd⟩ := parseModRM_ofList.mp hp
    have hbytes : bs.drop 1 = m.encode ++ bytesOf w ++ bs.drop (5 + m.length) := by
      rw [hd, ofList_word_eq_ok.mp hw, show 1 + m.length + 4 = 5 + m.length by omega, List.append_assoc]
    exact ⟨hm, congrArg _ hbytes⟩
  | groupFF =>
    obtain ⟨m, n, hp, hr, rfl⟩ := h
    obtain ⟨hm, rfl, hd⟩ := parseModRM_ofList.mp hp
    exact ⟨by simp [Instr.wf, hm, hr], congrArg _ hd⟩

/-- Settles O3: an entry has one opcode, and each operand it read is encoded in the bytes it was read from. -/
theorem encodeOfDecodeIsIdentity : Obligations.EncodeOfDecodeIsIdentity := by
  unfold Obligations.EncodeOfDecodeIsIdentity
  intro bs rest i h
  obtain ⟨hi, rfl⟩ := decodeBytes_eq_ok.mp h
  obtain ⟨op, e, hop, he, hrest⟩ := decode_eq_ok.mp hi
  obtain ⟨hwf, hbytes⟩ := decodeEntry_ofList hrest
  refine ⟨hwf, ?_⟩
  calc bs = op :: bs.drop 1 := ofList_byte_eq_ok.mp hop
    _ = encode i ++ bs.drop i.length := by rw [opcode_of_dispatch he, hbytes]

/-! ### The first bytes that begin no instruction (R60) -/

theorem mapError_eq_error {ε δ α : Type} {f : ε → δ} {r : Except ε α} {e : δ} :
    r.mapError f = .error e ↔ ∃ e', r = .error e' ∧ f e' = e := by
  cases r <;> simp [Except.mapError]

theorem bind_eq_error {ε α β : Type} {f : α → Except ε β} {r : Except ε α} {e : ε} :
    (r >>= f) = .error e ↔ r = .error e ∨ ∃ a, r = .ok a ∧ f a = .error e := by
  cases r <;> simp [bind, Except.bind]

section
variable {ε : Type} (src : ByteSource ε) (op b : Byte)

theorem operandByte_ne_opcodeNotImplemented : operandByte src op ≠ .error (.opcodeNotImplemented b) := by
  simp [operandByte, mapError_eq_error]

theorem operandWord_ne_opcodeNotImplemented : operandWord src op ≠ .error (.opcodeNotImplemented b) := by
  simp [operandWord, mapError_eq_error]

theorem operandModRM_ne_opcodeNotImplemented : operandModRM src op ≠ .error (.opcodeNotImplemented b) := by
  simp [operandModRM, mapError_eq_error]

/-- Once the first byte has an entry, no failure is the one of an unmapped first byte. -/
theorem decodeEntry_ne_opcodeNotImplemented (e : Entry) : decodeEntry src op e ≠ .error (.opcodeNotImplemented b) := by
  intro h
  cases e with
  | addRm32R32 | movRm32R32 | movR32Rm32 =>
    exact operandModRM_ne_opcodeNotImplemented src op b (Machine.map_eq_error.mp h)
  | pushR32 | popR32 | ret | leave => cases h
  | pushImm32 | movR32Imm32 | callRel32 | jmpRel32 =>
    exact operandWord_ne_opcodeNotImplemented src op b (Machine.map_eq_error.mp h)
  | pushImm8 | jmpRel8 => exact operandByte_ne_opcodeNotImplemented src op b (Machine.map_eq_error.mp h)
  | group83 =>
    obtain hm | ⟨⟨m, k⟩, -, hp⟩ := bind_eq_error.mp h
    · exact operandModRM_ne_opcodeNotImplemented src op b hm
    · dsimp only at hp
      split at hp
      · simp [bind_eq_error, mapError_eq_error, pure, Except.pure] at hp
      split at hp
      · simp [bind_eq_error, mapError_eq_error, pure, Except.pure] at hp
      · cases hp
  | movRm32Imm32 =>
    obtain hm | ⟨p, -, hp⟩ := bind_eq_error.mp h
    · exact operandModRM_ne_opcodeNotImplemented src op b hm
    · simp [bind_eq_error, mapError_eq_error, pure, Except.pure] at hp
  | groupFF =>
    obtain hm | ⟨⟨m, k⟩, -, hp⟩ := bind_eq_error.mp h
    · exact operandModRM_ne_opcodeNotImplemented src op b hm
    · dsimp only at hp
      split at hp
      · cases hp
      · cases hp

end

theorem decode_cons_of_dispatch {op : Byte} {e : Entry} (bs : List Byte) (h : dispatch op = some e) :
    decode (ByteSource.ofList (op :: bs)) = decodeEntry (ByteSource.ofList (op :: bs)) op e := by
  simp only [decode, ByteSource.ofList, List.drop_zero, h]

theorem decode_cons_of_unmapped {op : Byte} (bs : List Byte) (h : dispatch op = none) :
    decode (ByteSource.ofList (op :: bs)) = .error (.opcodeNotImplemented op) := by
  simp only [decode, ByteSource.ofList, List.drop_zero, h]

/-- The descriptor of the ModRM byte `C0`: the register EAX, with sub-code 0. -/
def eaxModRM : ModRM := { mod := 3, reg := 0, rm := 0, sib := none, disp := none }

/-- Every entry finds its operands in `C0 00 00 00 00`: `C0` is a whole ModRM sequence with a sub-code that both groups
define. -/
theorem decodeEntry_of_padding (op b : Byte) (rest : List Byte) (e : Entry) :
    ∃ i, decodeEntry (ByteSource.ofList (op :: 0xC0 :: 0 :: 0 :: 0 :: 0 :: rest)) b e = .ok i := by
  have hm : parseModRM (ByteSource.ofList (op :: 0xC0 :: 0 :: 0 :: 0 :: 0 :: rest)) 1 = .ok (eaxModRM, 2) :=
    parseModRM_encode (m := eaxModRM) op (0 :: 0 :: 0 :: 0 :: rest) rfl
  simp only [decodeEntry_eq_ok]
  cases e with
  | addRm32R32 | movRm32R32 | movR32Rm32 => exact ⟨_, _, _, hm, rfl⟩
  | pushR32 | popR32 | ret | leave => exact ⟨_, rfl⟩
  | pushImm32 | movR32Imm32 | callRel32 | jmpRel32 => exact ⟨_, _, rfl, rfl⟩
  | pushImm8 | jmpRel8 => exact ⟨_, _, rfl, rfl⟩
  | group83 => exact ⟨_, _, _, _, hm, rfl, .inl ⟨rfl, rfl⟩⟩
  | movRm32Imm32 => exact ⟨_, _, _, _, hm, rfl, rfl⟩
  | groupFF => exact ⟨_, _, _, hm, rfl, rfl⟩

/-- Settles O4: the dispatch alone decides it, since an entry fails in other ways only, and none fails on the bytes given. -/
theorem unmappedFirstBytesAreThoseListed : Obligations.UnmappedFirstBytesAreThoseListed := by
  unfold Obligations.UnmappedFirstBytesAreThoseListed
  intro op rest
  rw [← dispatch_eq_none]
  cases hd : dispatch op with
  | none => exact ⟨iff_of_true (decode_cons_of_unmapped rest hd) rfl, fun h => absurd rfl h⟩
  | some e =>
    rw [decode_cons_of_dispatch rest hd]
    refine ⟨iff_of_false (decodeEntry_ne_opcodeNotImplemented _ op op e) nofun, fun _ => ?_⟩
    rw [decode_cons_of_dispatch _ hd]
    exact decodeEntry_of_padding op op rest e

/-- Settles O1: the decoder run on each of the six words. -/
theorem writtenEncodingsDecode : Obligations.WrittenEncodingsDecode := by
  unfold Obligations.WrittenEncodingsDecode
  exact ⟨rfl, rfl, rfl, rfl, rfl, rfl⟩

end Sys2Proof
end

section
/-! SUPPORT. The proofs of the statements about steps and runs (`49_execution_loop.md`) and about what every step keeps
(`10_state.md` sections 5 and 7): the invariant at reset, after a load and along a run, and what a step records. -/

namespace Sys2Proof.Machine

/-! ### The step that was made -/

theorem running_of_step {s t : State} (h : step s = .next t) : s.run = .running :=
  Decidable.byContradiction fun hr => step_ended hr h

/-- What a step that was made did: an instruction and the halt check, or a failing fetch. -/
theorem step_next_cases {s t : State} (h : step s = .next t) :
    (∃ i u, s.fetch = .ok i ∧ exec i s = .next u ∧ Answer s u i.opcode ∧ t = u.haltCheck) ∨
      Stopped s t (if s.pc.toNat < s.cfg.memSize then some (s.mem.read s.pc.toNat) else none) := by
  obtain ⟨i, u, hf, hu, ha, hst⟩ | ⟨f, -, hst, hstop⟩ := step_cases (running_of_step h)
  · cases h.symm.trans hst
    exact .inl ⟨i, u, hf, hu, ha, rfl⟩
  · cases h.symm.trans hst
    exact .inr hstop

theorem step_cfg {s t : State} (h : step s = .next t) : t.cfg = s.cfg := by
  obtain ⟨i, u, -, -, ha, rfl⟩ | hstop := step_next_cases h
  · rw [haltCheck_cfg, ha.cfg]
  · exact hstop.cfg

/-- Settles O44: an instruction keeps it, and so do the halt check and a failing fetch. -/
theorem configurationIsConstant : Obligations.ConfigurationIsConstant := by
  unfold Obligations.ConfigurationIsConstant
  exact fun s t => step_cfg

/-- Settles O40: an instruction that fails was fetched, so its opcode byte lies in memory; a failing fetch records the byte
where it could be read. -/
theorem failingStepRecordsItsInstruction : Obligations.FailingStepRecordsItsInstruction := by
  unfold Obligations.FailingStepRecordsItsInstruction
  intro s t hr h ht
  obtain ⟨i, u, hf, hu, -, rfl⟩ | hstop := step_next_cases h
  · obtain ⟨hp, hop⟩ := fetch_ok hf
    rw [haltCheck_run_eq_haltedFault] at ht
    obtain ⟨hrun, -⟩ | ⟨-, k, hk, -⟩ := (answer_of_exec hu).ends
    · exact absurd (hrun.symm.trans ht) (by simp [hr])
    · exact ⟨k, by rw [haltCheck_fault, hk, hop, if_pos hp]⟩
  · obtain ⟨k, hk, -⟩ := hstop.fault
    exact ⟨k, hk⟩

/-- The halt check of a running state only sets `run`. -/
theorem haltCheck_with_running {u : State} (h : u.run = .running) : { u.haltCheck with run := .running } = u := by
  by_cases hp : u.pc = u.cfg.haltSentinel
  · rw [haltCheck_at_sentinel h hp]
    exact h ▸ rfl
  · rw [haltCheck_away_from_sentinel hp]
    exact h ▸ rfl

/-- Settles O42: every instruction answers a next state, and so does a failing fetch. -/
theorem everyRunningStepHasANextState : Obligations.EveryRunningStepHasANextState := by
  unfold Obligations.EveryRunningStepHasANextState
  intro s hr
  obtain ⟨i, u, hf, hu, -, hst⟩ | ⟨f, hf, -⟩ := step_cases hr
  · refine ⟨_, hst, ?_⟩
    obtain ⟨hrun, -⟩ | ⟨hrun, hrec⟩ := exec_completes_or_records hr hu
    · refine .inl ⟨i, hf, by rw [hu, haltCheck_with_running hrun], ?_⟩
      simp [haltCheck_run_eq_haltedFault, hrun]
    · refine .inr ⟨haltCheck_run_eq_haltedFault.mpr hrun, ?_⟩
      rwa [haltCheck_fault]
  · obtain ⟨t, hst, hfail⟩ := step_fails_of_fetch_error hr hf
    exact ⟨t, hst, .inr hfail⟩

/-! ### The invariant -/

/-- A run that has not failed has no record. -/
theorem fault_eq_none {s : State} (h : s.Inv) (hr : s.run ≠ .haltedFault) : s.fault = none := by
  have : ¬s.fault.isSome = true := fun e => hr (h.faultIff.mp e)
  simpa using this

/-- The invariant of a state whose run goes on. -/
theorem inv_running {t : State} (hc : t.cfg.Valid) (hw : t.mem.wf = true) (hm : t.mem.within t.cfg.memSize = true)
    (hr : t.run = .running) (hf : t.fault = none) : t.Inv where
  cfgValid := hc
  memWf := hw
  memWithin := hm
  faultIff := by simp [hr, hf]
  normalPc := by simp [hr]
  noRegister := by simp [hf]
  opcodeIff := by simp [hf]

/-- The invariant of a state whose run has failed. -/
theorem inv_failed {t : State} {k : Failure} {a : Word} {op : Option Byte} (hc : t.cfg.Valid) (hw : t.mem.wf = true)
    (hm : t.mem.within t.cfg.memSize = true) (hr : t.run = .haltedFault)
    (hf : t.fault = some { failure := k, address := a, opcode := op }) (hk : ∀ i, k ≠ .registerOutOfRange i)
    (hop : op = none ↔ t.cfg.memSize ≤ a.toNat) : t.Inv where
  cfgValid := hc
  memWf := hw
  memWithin := hm
  faultIff := by simp [hr, hf]
  normalPc := by simp [hr]
  noRegister := by simpa [hf] using hk
  opcodeIff := by simpa [hf] using hop

/-- The halt check keeps the invariant: it ends a run at the sentinel only. -/
theorem inv_haltCheck {u : State} (h : u.Inv) : u.haltCheck.Inv := by
  by_cases hstop : u.run = .running ∧ u.pc = u.cfg.haltSentinel
  · obtain ⟨hr, hp⟩ := hstop
    have hf : u.fault = none := fault_eq_none h (by simp [hr])
    rw [haltCheck_at_sentinel hr hp]
    exact ⟨h.cfgValid, h.memWf, h.memWithin, by simp [hf], fun _ => hp, h.noRegister, h.opcodeIff⟩
  · rwa [State.haltCheck, if_neg hstop]

/-- What an instruction answers meets the invariant, if the instruction was fetched in a running state that does. -/
theorem inv_answer {s u : State} {i : Instr} (h : s.Inv) (hr : s.run = .running) (hf : s.fetch = .ok i)
    (ha : Answer s u i.opcode) : u.Inv := by
  have hc : u.cfg.Valid := ha.cfg ▸ h.cfgValid
  have hw := ha.wf h.memWf
  have hm : u.mem.within u.cfg.memSize = true := ha.cfg ▸ ha.within h.memWithin
  obtain ⟨hrun, hfault⟩ | ⟨hrun, k, hfault, hk⟩ := ha.ends
  · exact inv_running hc hw hm (hrun.trans hr) (hfault.trans (fault_eq_none h (by simp [hr])))
  · have hp := (fetch_ok hf).1
    refine inv_failed hc hw hm hrun hfault hk ?_
    simp [ha.cfg, hp]

/-- What a failing fetch leaves meets the invariant. -/
theorem inv_stopped {s t : State} (h : s.Inv)
    (hstop : Stopped s t (if s.pc.toNat < s.cfg.memSize then some (s.mem.read s.pc.toNat) else none)) : t.Inv := by
  obtain ⟨hc, -, hm, hrun, k, hfault, hk⟩ := hstop
  refine inv_failed (hc ▸ h.cfgValid) (hm ▸ h.memWf) (by rw [hm, hc]; exact h.memWithin) hrun hfault hk ?_
  simp [hc]

theorem step_keeps_inv {s t : State} (h : s.Inv) (hst : step s = .next t) : t.Inv := by
  obtain ⟨i, u, hf, -, ha, rfl⟩ | hstop := step_next_cases hst
  · exact inv_haltCheck (inv_answer h (running_of_step hst) hf ha)
  · exact inv_stopped h hstop

/-- Settles O48: by what an instruction answers, the halt check, and what a failing fetch leaves. -/
theorem stepKeepsInvariant : Obligations.StepKeepsInvariant := by
  unfold Obligations.StepKeepsInvariant
  exact fun s t => step_keeps_inv

/-! ### Reset and load (R28, R140, R142) -/

/-- Settles O45: each field as `State.resetWith` gives it. -/
theorem resetState : Obligations.ResetState := by
  unfold Obligations.ResetState
  refine fun cfg => ⟨rfl, rfl, rfl, fun r hr => ?_, fun a => rfl, rfl, rfl⟩
  cases r with
  | esp => exact absurd rfl hr
  | eax | ecx | edx | ebx | ebp | esi | edi => rfl

theorem resetWith_inv {cfg : Config} (h : cfg.Valid) : (State.resetWith cfg).Inv := inv_running h rfl rfl rfl rfl

/-- Settles O46: memory is empty and the run has just begun; the default configuration is legal. -/
theorem resetMeetsInvariant : Obligations.ResetMeetsInvariant := by
  unfold Obligations.ResetMeetsInvariant
  exact ⟨fun cfg => resetWith_inv, resetWith_inv (by decide)⟩

/-- What is copied ends inside memory, or nothing is. -/
theorem load_fits (cfg : Config) (maxLen : Nat) (p : List Byte) :
    p.take (Config.loadCount cfg maxLen p.length) = [] ∨
      cfg.loadBase.toNat + (p.take (Config.loadCount cfg maxLen p.length)).length ≤ cfg.memSize := by
  by_cases h : cfg.loadBase.toNat ≤ cfg.memSize
  · right
    simp only [List.length_take, Config.loadCount]
    omega
  · left
    have : Config.loadCount cfg maxLen p.length = 0 := by simp only [Config.loadCount]; omega
    rw [this, List.take_zero]

theorem load_keeps_inv {s : State} (h : s.Inv) (maxLen : Nat) (p : List Byte) : (s.load maxLen p).1.Inv where
  cfgValid := h.cfgValid
  memWf := wf_writeBytes _ _ h.memWf
  memWithin := within_writeBytes _ _ h.memWithin (load_fits ..)
  faultIff := h.faultIff
  normalPc := h.normalPc
  noRegister := h.noRegister
  opcodeIff := h.opcodeIff

/-- What memory reads as after a load. -/
theorem read_load {s : State} (h : s.mem.wf = true) (maxLen : Nat) (p : List Byte) (a : Nat) :
    (s.load maxLen p).1.mem.read a =
      if s.cfg.loadBase.toNat ≤ a then
        ((p.take (Config.loadCount s.cfg maxLen p.length))[a - s.cfg.loadBase.toNat]?).getD (s.mem.read a)
      else s.mem.read a :=
  read_writeBytes _ _ _ h

/-- Settles O47: the bytes copied are the program's first, from `LOAD_BASE` on, and no other is written. -/
theorem loadPlacesTheProgram : Obligations.LoadPlacesTheProgram := by
  unfold Obligations.LoadPlacesTheProgram
  intro s maxLen p h
  refine ⟨Config.loadCount s.cfg maxLen p.length, rfl, rfl, fun i b hi hb => ?_, fun a ha => ?_, rfl,
    load_keeps_inv h maxLen p⟩
  · rw [read_load h.memWf, if_pos (Nat.le_add_right ..), Nat.add_sub_cancel_left, List.getElem?_take_of_lt hi, hb,
      Option.getD_some]
  · rw [read_load h.memWf]
    split
    · rw [List.getElem?_eq_none (by rw [List.length_take]; omega), Option.getD_none]
    · rfl

/-! ### Runs (R115, R116) -/

theorem runFuel_of_step {s t : State} (h : step s = .next t) (n : Nat) : runFuel (n + 1) s = runFuel n t := by
  rw [runFuel, h]

/-- A running state makes a step, and a run under more fuel goes on from there. -/
theorem runFuel_running {s : State} (h : s.run = .running) :
    ∃ t, step s = .next t ∧ ∀ n, runFuel (n + 1) s = runFuel n t := by
  obtain ⟨_, t, -, -, -, hst⟩ | ⟨f, -, hst, -⟩ := step_cases h
  · exact ⟨_, hst, runFuel_of_step hst⟩
  · exact ⟨_, hst, runFuel_of_step hst⟩

/-- What every step keeps holds after any number of steps. -/
theorem runFuel_induction {P : State → Prop} (hstep : ∀ s t, P s → step s = .next t → P t) {s : State} (h : P s) (n : Nat) :
    P (runFuel n s) := by
  induction n generalizing s with
  | zero => exact h
  | succ n ih =>
    by_cases hr : s.run = .running
    · obtain ⟨t, hst, hrun⟩ := runFuel_running hr
      rw [hrun]
      exact ih (hstep s t h hst)
    · rwa [runFuel_of_ended hr]

/-- A run under the fuel of two is the second run from where the first stands. -/
theorem runFuel_add (n k : Nat) (s : State) : runFuel (n + k) s = runFuel k (runFuel n s) := by
  induction n generalizing s with
  | zero => rw [Nat.zero_add, runFuel]
  | succ n ih =>
    by_cases hr : s.run = .running
    · obtain ⟨t, -, hrun⟩ := runFuel_running hr
      rw [Nat.succ_add, hrun, hrun, ih]
    · rw [runFuel_of_ended hr, runFuel_of_ended hr, runFuel_of_ended hr]

/-- Settles O49: by the induction over the steps, and because no step leaves an ended state. -/
theorem runsKeepInvariantAndStayEnded : Obligations.RunsKeepInvariantAndStayEnded := by
  unfold Obligations.RunsKeepInvariantAndStayEnded
  intro s n k h
  refine ⟨runFuel_induction (fun _ _ => step_keeps_inv) h n, ?_, fun hr => ?_⟩
  · exact runFuel_induction (P := fun t => t.cfg = s.cfg) (fun _ _ ht hst => (step_cfg hst).trans ht) rfl n
  · rw [runFuel_add, runFuel_of_ended hr]

/-! ### The bytes at `pc` -/

/-- The bytes at `pc` are fetched as they decode. -/
theorem fetch_of_codeAt {s : State} {bs rest : List Byte} {i : Instr} (hv : s.cfg.Valid) (h : CodeAt s bs)
    (hd : decodeBytes bs = .ok (i, rest)) : s.fetch = .ok i :=
  decode_serves (codeAt_serves hv h) (decodeBytes_eq_ok.mp hd).1

/-- Settles O41: memory serves the decoder the bytes at `pc`, and the halt check is the last thing a step does. -/
theorem stepRunsDecodedInstruction : Obligations.StepRunsDecodedInstruction := by
  unfold Obligations.StepRunsDecodedInstruction
  intro s bs rest i hr hv hcode hd
  obtain ⟨t, ht, ha⟩ := exec_answer i s
  refine ⟨t, ht, ?_⟩
  rw [step_of_exec hr (fetch_of_codeAt hv hcode hd) ht, State.haltCheck, ha.cfg]

/-- JMP rel8 of -2 leads back to itself. -/
theorem exec_jmpRel8_self (s : State) : exec (.jmpRel8 0xFE) s = .next s := by
  have hpc : s.pc + 2 + sext8to32 0xFE = s.pc := by
    rw [BitVec.add_assoc, show (2 : Word) + sext8to32 0xFE = 0#32 by decide, BitVec.add_zero]
  rw [exec, execJmpRel8_run, hpc]

/-- A state that steps to itself is where every run from it stands. -/
theorem runFuel_of_self_step {s : State} (h : step s = .next s) (n : Nat) : runFuel n s = s :=
  runFuel_induction (P := fun t => t = s) (fun t u ht hst => by cases ht; cases h.symm.trans hst; rfl) rfl n

/-- Settles O50: the jump leads back to its own state, which is not at the sentinel, so the halt check lets it run. -/
theorem selfJumpRunsForever : Obligations.SelfJumpRunsForever := by
  unfold Obligations.SelfJumpRunsForever
  intro s hr hv hcode hp
  have hf : s.fetch = .ok (.jmpRel8 0xFE) := fetch_of_codeAt hv hcode (rest := []) rfl
  have hst : step s = .next s := by
    rw [step_of_exec hr hf (exec_jmpRel8_self s), haltCheck_away_from_sentinel hp]
  exact ⟨hst, fun n => by rw [runFuel_of_self_step hst, hr], runFuel_of_self_step hst⟩

/-! ### `pc` outside memory (R111) -/

theorem fetch_of_pc_outside {s : State} (h : s.cfg.memSize ≤ s.pc.toNat) :
    s.fetch = .error (.noOpcode (.memoryOutOfRange s.pc.toNat)) := by
  simp only [State.fetch, decode, codeSource_byte_zero, if_neg (Nat.not_lt.mpr h)]

/-- Settles O36: the opcode fetch fails first, with nothing consumed. -/
theorem fetchOutsideMemoryFails : Obligations.FetchOutsideMemoryFails := by
  unfold Obligations.FetchOutsideMemoryFails
  intro s hr hp
  exact ⟨_, step_of_fetch_error hr (fetch_of_pc_outside hp), ⟨rfl, rfl, rfl⟩, rfl, rfl, rfl⟩

end Sys2Proof.Machine
end

section
/-! SUPPORT. The proofs of the statements about the operations that the meanings share: writes and reads of memory
(`20_memory.md` sections 2 and 3), `Push` (`43_stack.md` section 1) and effective addresses (`40_operand_access.md` section 3). -/

namespace Sys2Proof.Machine

/-! ### Accesses that leave memory (R32, R33, R35, R36) -/

/-- An access that starts outside memory is outside from its own address on (D7). -/
theorem firstBad_of_outside {size a : Nat} (h : size ≤ a) : firstBad size a = a := Nat.max_eq_left h

theorem read8_error {s : State} {a : Nat} (h : s.cfg.memSize ≤ a) : s.read8 a = .error (.memoryOutOfRange a) := by
  rw [State.read8, if_neg (Nat.not_lt.mpr h), firstBad_of_outside h]

theorem memWrite8_error {s : State} {a : Nat} (v : Byte) (h : s.cfg.memSize ≤ a) :
    memWrite8 a v s = .error (.memoryOutOfRange a) s := by rw [memWrite8_run, if_neg (Nat.not_lt.mpr h)]

/-- The byte of an access that is outside memory while those before it are not is the one recorded. -/
theorem firstBad_of_first {size a k : Nat} (hin : ∀ j, j < k → a + j < size) (hout : size ≤ a + k) :
    firstBad size a = a + k := by
  rw [firstBad]
  cases k with
  | zero => omega
  | succ k =>
    have := hin k (Nat.lt_succ_self k)
    omega

/-- Of a 32-bit write cut at byte `k`, the bytes before it are stored and no other byte changes. -/
theorem read_storeBelow_cut {m : Memory} {size a k : Nat} (v : Word) (h : m.wf = true) (hk : k < 4)
    (hin : ∀ j, j < k → a + j < size) (hout : size ≤ a + k) :
    (∀ j, j < k → (m.storeBelow size a v).read (a + j) = byteOf v j) ∧
      ∀ b, ¬(a ≤ b ∧ b < a + k) → (m.storeBelow size a v).read b = m.read b := by
  constructor
  · intro j hj
    have := hin j hj
    rw [read_storeBelow _ _ _ _ h, if_pos (by omega), Nat.add_sub_cancel_left]
  · intro b hb
    rw [read_storeBelow _ _ _ _ h, if_neg (by omega)]

/-- Settles O6: a byte is checked by itself, and a word that is cut keeps the bytes stored before the cut. -/
theorem writesAreByteAtATime : Obligations.WritesAreByteAtATime := by
  unfold Obligations.WritesAreByteAtATime
  intro s hm
  refine ⟨fun a v h => memWrite8_error v h, fun a v h => ?_, fun a v h => ?_, fun a v k hk hin hout => ?_⟩
  · exact ⟨_, memWrite8_ok v h, read_write_self a v hm, fun b hb => read_write_other v hm hb, rfl⟩
  · exact ⟨_, memWrite32_ok h, storedWord_storeBelow hm h rfl, rfl⟩
  · have hcut : ¬InRange s a.toNat := by simp only [InRange]; omega
    obtain ⟨hstored, hkept⟩ := read_storeBelow_cut v hm hk hin hout
    exact ⟨_, by rw [memWrite32_error hcut, firstBad_of_first hin hout], hstored, hkept, rfl⟩

/-- Settles O8: a read checks its bytes before it reads them, and the lowest outside memory is the larger of its address and
the capacity. -/
theorem readsAreBoundedAndLittleEndian : Obligations.ReadsAreBoundedAndLittleEndian := by
  unfold Obligations.ReadsAreBoundedAndLittleEndian
  intro s
  refine ⟨fun a h => read8_ok h, fun a h => read8_error h, fun a h => ?_, fun a h => ?_⟩
  · exact ⟨_, memRead32_ok h, toNat_wordOfBytes ..⟩
  · refine ⟨_, memRead32_error (Nat.not_lt.mpr h), Nat.le_max_right .., Nat.le_max_left .., Nat.max_le.mpr ⟨by omega, h⟩,
      fun g hg hlt => ?_⟩
    rw [firstBad] at hlt
    omega

/-! ### A push that leaves memory (R95) -/

theorem push_error (v : Word) {s : State} (h : ¬InRange s (s.regs.esp - 4).toNat) :
    push v s = .error (.memoryOutOfRange (firstBad s.cfg.memSize (s.regs.esp - 4).toNat)) (afterPush v s) := by
  rw [push_run, if_neg h, afterPush]

theorem afterPush_sameRegsBut (v : Word) (s : State) : SameRegsBut s (afterPush v s) [.esp] := sameRegsBut_of_regs_set rfl

/-- Settles O11: the decrement is made in both cases, and the write stores what of the slot lies inside memory. -/
theorem pushDecrementsThenWrites : Obligations.PushDecrementsThenWrites := by
  unfold Obligations.PushDecrementsThenWrites
  intro s v hm
  constructor
  · exact fun h => ⟨_, push_ok v h, rfl, afterPush_sameRegsBut v s, storedWord_storeBelow hm h rfl, rfl, rfl, rfl, rfl⟩
  · exact fun h => ⟨_, _, push_error v h, rfl, afterPush_sameRegsBut v s, storedBelow_storeBelow hm rfl, rfl, rfl, rfl, rfl⟩

/-! ### Effective addresses (R76) -/

theorem effAddr_ok {m : ModRM} (s : State) (h : m.rm ≠ 4) : effAddr m s = .ok (effectiveAddress m s.regs) s := by
  rw [effAddr_run, if_neg h]

theorem effectiveAddress_register {m : ModRM} (g : Regs) (hmod : m.mod = 0) (hrm : m.rm ≠ 5) :
    effectiveAddress m g = g.get (rmReg m) := by rw [effectiveAddress, if_pos hmod, if_neg hrm]

theorem effectiveAddress_absolute {m : ModRM} {d : Word} (g : Regs) (hmod : m.mod = 0) (hrm : m.rm = 5)
    (hd : m.disp = some d) : effectiveAddress m g = d := by
  rw [effectiveAddress, if_pos hmod, if_pos hrm, ModRM.dispWord, hd, Option.getD_some]

theorem effectiveAddress_displaced {m : ModRM} {d : Word} (g : Regs) (hmod : m.mod ≠ 0) (hd : m.disp = some d) :
    effectiveAddress m g = g.get (rmReg m) + d := by
  rw [effectiveAddress, if_neg hmod, ModRM.dispWord, hd, Option.getD_some]

/-- Settles O13: one form for each row of the table, and the SIB forms fail before an address is computed. -/
theorem effectiveAddressForms : Obligations.EffectiveAddressForms := by
  unfold Obligations.EffectiveAddressForms
  intro m s d _
  refine ⟨fun h => ?_, fun h0 h4 h5 => ?_, fun h0 h5 hd => ?_, fun h12 h4 hd => ?_⟩
  · rw [effAddr_run, if_pos h]
  · rw [effAddr_ok s h4, effectiveAddress_register _ h0 h5, rmReg]
  · rw [effAddr_ok s (by simp [h5]), effectiveAddress_absolute _ h0 h5 hd]
  · have h0 : m.mod ≠ 0 := by obtain h | h := h12 <;> simp [h]
    exact ⟨_, effAddr_ok s h4, by rw [effectiveAddress_displaced _ h0 hd, BitVec.toNat_add, rmReg]⟩

end Sys2Proof.Machine
end

section
/-! SUPPORT. The proofs of the statements about instructions that complete (`41_data_movement.md` to `44_control_transfer.md`):
the state each leaves is that of one register write, one store, one push or one pop, and each of the four has one frame. -/

namespace Sys2Proof.Machine

/-! ### The result in a register -/

/-- The state after an instruction that writes `v` to `r` alone, with `pc` at `p`. -/
def afterRegister (r : Reg) (v p : Word) (s : State) : State := { s with pc := p, regs := s.regs.set r v }

/-- Such an instruction completes, in the words of the statements. -/
theorem completes_register {o : Host.Outcome State Fault Refusal} {r : Reg} {v p : Word} {s : State}
    (h : o = .next (afterRegister r v p s)) :
    ∃ t, o = .next t ∧ t.regs.get r = v ∧ SameRegsBut s t [r] ∧ t.pc = p ∧ SameMem s t ∧ SameControl s t :=
  ⟨_, h, regs_get_set_self .., sameRegsBut_of_regs_set rfl, rfl, fun _ => rfl, rfl, rfl, rfl⟩

/-- The same for a result that is stated as a number. -/
theorem completes_register_toNat {o : Host.Outcome State Fault Refusal} {r : Reg} {v p : Word} {s : State} {n : Nat}
    (h : o = .next (afterRegister r v p s)) (hn : v.toNat = n) :
    ∃ t, o = .next t ∧ (t.regs.get r).toNat = n ∧ SameRegsBut s t [r] ∧ t.pc = p ∧ SameMem s t ∧ SameControl s t := by
  obtain ⟨t, ht, hv, hframe⟩ := completes_register h
  exact ⟨t, ht, by rw [hv, hn], hframe⟩

/-- A ModRM byte that names a register is the whole sequence (R55). -/
theorem modrm_length_of_register {m : ModRM} (h : m.mod = 3) : m.length = 1 := by
  rw [ModRM.length, h, if_neg (by simp [sibFollows]), dispKind_eq_absent.mpr (.inl rfl), DispKind.size]

theorem modifyRm_register {m : ModRM} (op : Byte) (n : Nat) (g : Word → Word) (s : State) (h : m.mod = 3) :
    modifyRm m op (n + m.length) g s =
      afterRegister (rmReg m) (g (s.regs.get (rmReg m))) (s.pc + BitVec.ofNat 32 (n + 1)) s := by
  rw [modifyRm, if_pos h, modrm_length_of_register h]
  rfl

/-- Settles O14: each of the four writes its destination alone. -/
theorem movToRegisterCompletes : Obligations.MovToRegisterCompletes := by
  unfold Obligations.MovToRegisterCompletes
  refine ⟨fun m s h _ => ?_, fun m s h _ => ?_, fun r imm s => ?_, fun m imm s h _ => ?_⟩
  · refine completes_register ?_
    rw [exec, execMovRm32R32_run, if_pos h, modrm_length_of_register h]
    rfl
  · refine completes_register ?_
    rw [exec, execMovR32Rm32_run, if_pos h, modrm_length_of_register h]
    rfl
  · exact completes_register (execMovR32Imm32_run r imm s)
  · refine completes_register ?_
    rw [exec, execMovRm32Imm32_run, if_pos h, modrm_length_of_register h]
    rfl

/-- Settles O15: the load writes its destination alone, from the address that the registers gave before the write. -/
theorem movLoadCompletes : Obligations.MovLoadCompletes := by
  unfold Obligations.MovLoadCompletes
  intro m s h3 h4 _ hr
  refine completes_register ?_
  rw [exec, execMovR32Rm32_run, if_neg h3, if_neg h4, if_pos hr]
  rfl

/-- The difference of two words as a number (R94). -/
theorem toNat_sub_word (a b : Word) : (a - b).toNat = (a.toNat + 2 ^ 32 - b.toNat) % 2 ^ 32 := by
  have := b.isLt
  rw [BitVec.toNat_sub]
  congr 1
  omega

/-- Settles O17: a read, modify and write of a register writes it alone, and words add and subtract modulo 2^32. -/
theorem arithmeticOnRegisterCompletes : Obligations.ArithmeticOnRegisterCompletes := by
  unfold Obligations.ArithmeticOnRegisterCompletes
  refine ⟨fun m s h _ => ?_, fun m imm s h _ => ?_, fun m imm s h _ => ?_, fun m s h _ => ?_⟩
  · refine completes_register_toNat ?_ (BitVec.toNat_add ..)
    rw [exec, execAddRm32R32_run, modifyRm_register _ 1 _ s h]
    rfl
  · refine completes_register_toNat ?_ (BitVec.toNat_add ..)
    rw [exec, execAddRm32Imm8_run, modifyRm_register _ 2 _ s h]
    rfl
  · refine completes_register_toNat ?_ (toNat_sub_word ..)
    rw [exec, execSubRm32Imm8_run, modifyRm_register _ 2 _ s h]
    rfl
  · refine completes_register_toNat ?_ (BitVec.toNat_add (s.regs.get (rmReg m)) 1)
    rw [exec, execIncRm32_run, modifyRm_register _ 1 _ s h]
    rfl

/-! ### The result in memory -/

/-- The state after an instruction that stores `v` at `a` alone, with `pc` at `p`. -/
def afterStore (a v p : Word) (s : State) : State :=
  { s with pc := p, mem := s.mem.storeBelow s.cfg.memSize a.toNat v }

/-- Such an instruction completes, in the words of the statements. -/
theorem completes_store {o : Host.Outcome State Fault Refusal} {a v p : Word} {s : State} (hm : s.mem.wf = true)
    (hr : InRange s a.toNat) (h : o = .next (afterStore a v p s)) :
    ∃ t, o = .next t ∧ StoredWord s t a.toNat v ∧ SameRegsBut s t [] ∧ t.pc = p ∧ SameControl s t :=
  ⟨_, h, storedWord_storeBelow hm hr rfl, fun _ _ => rfl, rfl, rfl, rfl, rfl⟩

section
variable {m : ModRM} {s : State}

theorem modifyRm_memory (op : Byte) (n : Nat) (g : Word → Word) (h3 : m.mod ≠ 3) (h4 : m.rm ≠ 4)
    (hr : InRange s (operandAddress m s)) :
    modifyRm m op n g s =
      afterStore (effectiveAddress m s.regs) (g (s.mem.readWord (operandAddress m s))) (s.pc + BitVec.ofNat 32 n) s := by
  rw [modifyRm, if_neg h3, if_neg h4, if_pos hr]
  rfl

theorem exec_movRm32R32_memory (h3 : m.mod ≠ 3) (h4 : m.rm ≠ 4) (hr : InRange s (operandAddress m s)) :
    exec (.movRm32R32 m) s = .next (afterStore (effectiveAddress m s.regs) (s.regs.get (regReg m))
      (s.pc + BitVec.ofNat 32 (1 + m.length)) s) := by
  rw [exec, execMovRm32R32_run, if_neg h3, if_neg h4, if_pos hr]
  rfl

theorem exec_movRm32Imm32_memory (imm : Word) (h3 : m.mod ≠ 3) (h4 : m.rm ≠ 4) (hr : InRange s (operandAddress m s)) :
    exec (.movRm32Imm32 m imm) s =
      .next (afterStore (effectiveAddress m s.regs) imm (s.pc + BitVec.ofNat 32 (5 + m.length)) s) := by
  rw [exec, execMovRm32Imm32_run, if_neg h3, if_neg h4, if_pos hr]
  rfl

theorem exec_addRm32R32_memory (h3 : m.mod ≠ 3) (h4 : m.rm ≠ 4) (hr : InRange s (operandAddress m s)) :
    exec (.addRm32R32 m) s = .next (afterStore (effectiveAddress m s.regs)
      (s.mem.readWord (operandAddress m s) + s.regs.get (regReg m)) (s.pc + BitVec.ofNat 32 (1 + m.length)) s) := by
  rw [exec, execAddRm32R32_run, modifyRm_memory _ _ _ h3 h4 hr]

theorem exec_addRm32Imm8_memory (imm : Byte) (h3 : m.mod ≠ 3) (h4 : m.rm ≠ 4) (hr : InRange s (operandAddress m s)) :
    exec (.addRm32Imm8 m imm) s = .next (afterStore (effectiveAddress m s.regs)
      (s.mem.readWord (operandAddress m s) + sext8to32 imm) (s.pc + BitVec.ofNat 32 (2 + m.length)) s) := by
  rw [exec, execAddRm32Imm8_run, modifyRm_memory _ _ _ h3 h4 hr]

theorem exec_subRm32Imm8_memory (imm : Byte) (h3 : m.mod ≠ 3) (h4 : m.rm ≠ 4) (hr : InRange s (operandAddress m s)) :
    exec (.subRm32Imm8 m imm) s = .next (afterStore (effectiveAddress m s.regs)
      (s.mem.readWord (operandAddress m s) - sext8to32 imm) (s.pc + BitVec.ofNat 32 (2 + m.length)) s) := by
  rw [exec, execSubRm32Imm8_run, modifyRm_memory _ _ _ h3 h4 hr]

theorem exec_incRm32_memory (h3 : m.mod ≠ 3) (h4 : m.rm ≠ 4) (hr : InRange s (operandAddress m s)) :
    exec (.incRm32 m) s = .next (afterStore (effectiveAddress m s.regs)
      (s.mem.readWord (operandAddress m s) + 1) (s.pc + BitVec.ofNat 32 (1 + m.length)) s) := by
  rw [exec, execIncRm32_run, modifyRm_memory _ _ _ h3 h4 hr]

end

/-- Settles O16: both forms store at the operand's address alone. -/
theorem movStoreCompletes : Obligations.MovStoreCompletes := by
  unfold Obligations.MovStoreCompletes
  constructor
  · exact fun m s hm h3 h4 _ hr => completes_store hm hr (exec_movRm32R32_memory h3 h4 hr)
  · exact fun m imm s hm h3 h4 _ hr => completes_store hm hr (exec_movRm32Imm32_memory imm h3 h4 hr)

/-- Settles O18: a read, modify and write of memory stores at the operand's address alone. -/
theorem arithmeticOnMemoryCompletes : Obligations.ArithmeticOnMemoryCompletes := by
  unfold Obligations.ArithmeticOnMemoryCompletes
  intro m s hm h3 h4 hr
  refine ⟨fun _ => ?_, fun imm _ => ?_, fun imm _ => ?_, fun _ => ?_⟩
  · exact completes_store hm hr (exec_addRm32R32_memory h3 h4 hr)
  · exact completes_store hm hr (exec_addRm32Imm8_memory imm h3 h4 hr)
  · exact completes_store hm hr (exec_subRm32Imm8_memory imm h3 h4 hr)
  · exact completes_store hm hr (exec_incRm32_memory h3 h4 hr)

/-! ### The stack -/

theorem pushAnd_ok {s : State} (op : Byte) (v p : Word) (h : InRange s (s.regs.esp - 4).toNat) :
    pushAnd op v p s = { afterPush v s with pc := p } := by rw [pushAnd, if_pos h, afterPush]

/-- An instruction that pushes `v` and leaves `pc` at `p` completes, in the words of the statements. -/
theorem completes_push {o : Host.Outcome State Fault Refusal} {v p : Word} {s : State} (hm : s.mem.wf = true)
    (hr : InRange s (s.regs.esp - 4).toNat) (h : o = .next { afterPush v s with pc := p }) :
    ∃ t, o = .next t ∧ t.regs.esp = s.regs.esp - 4 ∧ SameRegsBut s t [.esp] ∧
      StoredWord s t (s.regs.esp - 4).toNat v ∧ t.pc = p ∧ SameControl s t :=
  ⟨_, h, rfl, sameRegsBut_of_regs_set rfl, storedWord_storeBelow hm hr rfl, rfl, rfl, rfl, rfl⟩

section
variable {s : State}

theorem exec_pushR32_ok (r : Reg) (h : InRange s (s.regs.esp - 4).toNat) :
    exec (.pushR32 r) s = .next { afterPush (s.regs.get r) s with pc := s.pc + 1 } := by
  rw [exec, execPushR32_run, pushAnd_ok _ _ _ h]

theorem exec_pushImm32_ok (imm : Word) (h : InRange s (s.regs.esp - 4).toNat) :
    exec (.pushImm32 imm) s = .next { afterPush imm s with pc := s.pc + 5 } := by
  rw [exec, execPushImm32_run, pushAnd_ok _ _ _ h]

theorem exec_pushImm8_ok (imm : Byte) (h : InRange s (s.regs.esp - 4).toNat) :
    exec (.pushImm8 imm) s = .next { afterPush (zext8to32 imm) s with pc := s.pc + 2 } := by
  rw [exec, execPushImm8_run, pushAnd_ok _ _ _ h]

theorem exec_popR32_ok (r : Reg) (h : InRange s s.regs.esp.toNat) :
    exec (.popR32 r) s = .next { s with
      pc := s.pc + 1
      regs := (s.regs.set .esp (s.regs.esp + 4)).set r (s.mem.readWord s.regs.esp.toNat) } := by
  rw [exec, execPopR32_run, if_pos h]

theorem exec_leave_ok (h : InRange s s.regs.ebp.toNat) :
    exec .leave s = .next { s with
      pc := s.pc + 1
      regs := (s.regs.set .esp (s.regs.ebp + 4)).set .ebp (s.mem.readWord s.regs.ebp.toNat) } := by
  rw [exec, execLeave_run, if_pos h]

end

/-- Extension by zeros keeps the number (R6). -/
theorem zext8to32_eq_ofNat (b : Byte) : zext8to32 b = BitVec.ofNat 32 b.toNat := (BitVec.ofNat_toNat 32 b).symm

/-- Settles O19: the three forms push their operand, which PUSH r32 reads before the decrement. -/
theorem pushCompletes : Obligations.PushCompletes := by
  unfold Obligations.PushCompletes
  refine fun s hm hr => ⟨fun r => ?_, fun imm => ?_, fun imm => ?_⟩
  · exact completes_push hm hr (exec_pushR32_ok r hr)
  · exact completes_push hm hr (exec_pushImm32_ok imm hr)
  · rw [← zext8to32_eq_ofNat]
    exact completes_push hm hr (exec_pushImm8_ok imm hr)

/-- Settles O22: CALL pushes the address after it. -/
theorem callCompletes : Obligations.CallCompletes := by
  unfold Obligations.CallCompletes
  intro rel s hm hr
  obtain ⟨t, ht, hesp, hregs, hslot, hpc, hcontrol⟩ := completes_push hm hr (exec_callRel32_ok rel hr)
  refine ⟨t, ht, hesp, hregs, hslot, ?_, hcontrol⟩
  rw [hpc, BitVec.toNat_add, BitVec.toNat_add, Nat.mod_add_mod]
  rfl

/-- Two registers written one after the other. -/
theorem regs_get_set_set_other (g : Regs) {q r r' : Reg} (v w : Word) (h : q ∉ [r, r']) :
    ((g.set r v).set r' w).get q = g.get q := by
  have hr : q ≠ r := fun e => h (by simp [e])
  have hr' : q ≠ r' := fun e => h (by simp [e])
  rw [regs_get_set_other _ _ hr', regs_get_set_other _ _ hr]

/-- Settles O20: ESP is incremented first and the register written last, so a popped ESP keeps the value popped. -/
theorem popCompletes : Obligations.PopCompletes := by
  unfold Obligations.PopCompletes
  intro r s h
  refine ⟨_, exec_popR32_ok r h, regs_get_set_self .., fun hr => ?_,
    fun q hq => regs_get_set_set_other _ _ _ hq, rfl, fun _ => rfl, rfl, rfl, rfl⟩
  exact regs_get_set_other (s.regs.set .esp (s.regs.esp + 4)) _ hr.symm

/-- Settles O21: LEAVE pops EBP with ESP at the old EBP. -/
theorem leaveCompletes : Obligations.LeaveCompletes := by
  unfold Obligations.LeaveCompletes
  intro s h
  exact ⟨_, exec_leave_ok h, rfl, rfl, fun q hq => regs_get_set_set_other _ _ _ hq, rfl,
    fun _ => rfl, rfl, rfl, rfl⟩

/-- Settles O23: RET pops `pc`. -/
theorem retCompletes : Obligations.RetCompletes := by
  unfold Obligations.RetCompletes
  exact fun s h => ⟨_, exec_ret_ok h, rfl, rfl, sameRegsBut_of_regs_set rfl, fun _ => rfl, rfl, rfl, rfl⟩

/-! ### Jumps -/

/-- A word with a signed byte added, as a number modulo 2^32 (R6). -/
theorem toNat_add_sext8to32 (a : Word) (b : Byte) :
    ((a + sext8to32 b).toNat : Int) = ((a.toNat : Int) + b.toInt) % 2 ^ 32 := by
  have hb : ((sext8to32 b).toNat : Int) = b.toInt % 2 ^ 32 := by
    rw [sext8to32, BitVec.signExtend, BitVec.toNat_ofInt]
    omega
  rw [BitVec.toNat_add]
  omega

/-- Settles O24: a jump sets `pc` and does nothing that can fail. -/
theorem jumpsComplete : Obligations.JumpsComplete := by
  unfold Obligations.JumpsComplete
  constructor
  · intro rel s
    refine ⟨_, execJmpRel32_run rel s, ?_, fun _ _ => rfl, fun _ => rfl, rfl, rfl, rfl⟩
    simp only [BitVec.toNat_add, Nat.mod_add_mod]
    rfl
  · intro rel s
    refine ⟨_, execJmpRel8_run rel s, ?_, fun _ _ => rfl, fun _ => rfl, rfl, rfl, rfl⟩
    have h2 : (s.pc + 2).toNat = (s.pc.toNat + 2) % 2 ^ 32 := BitVec.toNat_add ..
    rw [toNat_add_sext8to32, h2]
    omega

end Sys2Proof.Machine
end

section
/-! SUPPORT. The proofs of the statements about what an instruction leaves unchanged, whether it completes or fails (`10_state.md`
section 2, `20_memory.md` sections 3 and 6), and that the next fetch reads what was stored (`20_memory.md` section 9). -/

namespace Sys2Proof.Machine

/-! ### The registers of the table of R15 -/

theorem sameRegsBut_of_regs_eq {s t : State} {l : List Reg} (h : t.regs = s.regs) : SameRegsBut s t l :=
  fun _ _ => by rw [h]

theorem sameRegsBut_ite {c : Prop} [Decidable c] {s t u : State} {l : List Reg} (ht : SameRegsBut s t l)
    (hu : SameRegsBut s u l) : SameRegsBut s (if c then t else u) l := by
  split
  · exact ht
  · exact hu

/-- An instruction with an r/m32 destination: a register written, or the registers as they were in the other three cases. -/
theorem sameRegsBut_rmWritten {m : ModRM} {c : Prop} [Decidable c] {s t u v w : State} {x : Word}
    (ht : t.regs = s.regs.set (rmReg m) x) (hu : u.regs = s.regs) (hv : v.regs = s.regs) (hw : w.regs = s.regs) :
    SameRegsBut s (if m.mod = 3 then t else if m.rm = 4 then u else if c then v else w) (rmWritten m) := by
  rw [rmWritten]
  split
  · exact sameRegsBut_of_regs_set ht
  · exact sameRegsBut_ite (sameRegsBut_of_regs_eq hu)
      (sameRegsBut_ite (sameRegsBut_of_regs_eq hv) (sameRegsBut_of_regs_eq hw))

theorem sameRegsBut_modifyRm (m : ModRM) (op : Byte) (n : Nat) (g : Word → Word) (s : State) :
    SameRegsBut s (modifyRm m op n g s) (rmWritten m) := sameRegsBut_rmWritten rfl rfl rfl rfl

theorem sameRegsBut_pushAnd (op : Byte) (v p : Word) (s : State) : SameRegsBut s (pushAnd op v p s) [.esp] :=
  sameRegsBut_ite (sameRegsBut_of_regs_set rfl) (sameRegsBut_of_regs_set rfl)

/-- What every instruction answers differs in the registers of its row only. -/
theorem exec_sameRegsBut (i : Instr) (s : State) : ∃ t, exec i s = .next t ∧ SameRegsBut s t (writtenRegs i) := by
  cases i with
  | addRm32R32 m => exact ⟨_, execAddRm32R32_run m s, sameRegsBut_modifyRm _ _ _ _ _⟩
  | addRm32Imm8 m imm => exact ⟨_, execAddRm32Imm8_run m imm s, sameRegsBut_modifyRm _ _ _ _ _⟩
  | subRm32Imm8 m imm => exact ⟨_, execSubRm32Imm8_run m imm s, sameRegsBut_modifyRm _ _ _ _ _⟩
  | incRm32 m => exact ⟨_, execIncRm32_run m s, sameRegsBut_modifyRm _ _ _ _ _⟩
  | movRm32R32 m => exact ⟨_, execMovRm32R32_run m s, sameRegsBut_rmWritten rfl rfl rfl rfl⟩
  | movRm32Imm32 m imm => exact ⟨_, execMovRm32Imm32_run m imm s, sameRegsBut_rmWritten rfl rfl rfl rfl⟩
  | movR32Rm32 m =>
    exact ⟨_, execMovR32Rm32_run m s, sameRegsBut_ite (sameRegsBut_of_regs_set rfl)
      (sameRegsBut_ite (sameRegsBut_of_regs_eq rfl)
        (sameRegsBut_ite (sameRegsBut_of_regs_set rfl) (sameRegsBut_of_regs_eq rfl)))⟩
  | movR32Imm32 r imm => exact ⟨_, execMovR32Imm32_run r imm s, sameRegsBut_of_regs_set rfl⟩
  | pushR32 r => exact ⟨_, execPushR32_run r s, sameRegsBut_pushAnd _ _ _ _⟩
  | pushImm32 imm => exact ⟨_, execPushImm32_run imm s, sameRegsBut_pushAnd _ _ _ _⟩
  | pushImm8 imm => exact ⟨_, execPushImm8_run imm s, sameRegsBut_pushAnd _ _ _ _⟩
  | callRel32 rel => exact ⟨_, execCallRel32_run rel s, sameRegsBut_pushAnd _ _ _ _⟩
  | popR32 r =>
    exact ⟨_, execPopR32_run r s,
      sameRegsBut_ite (fun q hq => regs_get_set_set_other _ _ _ hq) (sameRegsBut_of_regs_eq rfl)⟩
  | leave =>
    exact ⟨_, execLeave_run s, sameRegsBut_ite (fun q hq => regs_get_set_set_other _ _ _ hq)
      (fun q hq => regs_get_set_other _ _ fun e => hq (e ▸ .head _))⟩
  | ret => exact ⟨_, execRet_run s, sameRegsBut_ite (sameRegsBut_of_regs_set rfl) (sameRegsBut_of_regs_eq rfl)⟩
  | jmpRel32 rel => exact ⟨_, execJmpRel32_run rel s, sameRegsBut_of_regs_eq rfl⟩
  | jmpRel8 rel => exact ⟨_, execJmpRel8_run rel s, sameRegsBut_of_regs_eq rfl⟩

/-- Settles O27: by the row of each instruction. -/
theorem onlyTheListedRegistersChange : Obligations.OnlyTheListedRegistersChange := by
  unfold Obligations.OnlyTheListedRegistersChange
  intro i s t h
  obtain ⟨u, hu, hregs⟩ := exec_sameRegsBut i s
  cases h.symm.trans hu
  exact hregs

/-! ### The bytes that are stored -/

/-- Memory is unchanged, or the four bytes at the address in `o` were stored as far as they lie inside it. -/
def StoresAtMost (o : Option Word) (s t : State) : Prop :=
  t.mem = s.mem ∨ ∃ a v, o = some a ∧ t.mem = s.mem.storeBelow s.cfg.memSize a.toNat v

theorem storesAtMost_ite {c : Prop} [Decidable c] {o : Option Word} {s t u : State} (ht : StoresAtMost o s t)
    (hu : StoresAtMost o s u) : StoresAtMost o s (if c then t else u) := by
  split
  · exact ht
  · exact hu

/-- The address of an r/m32 destination is there exactly for a memory operand that is no SIB form. -/
theorem rmStore_eq_some {α : Type} {m : ModRM} {x y : α} :
    (if m.mod = 3 ∨ m.rm = 4 then none else some x) = some y ↔ m.mod ≠ 3 ∧ m.rm ≠ 4 ∧ x = y := by
  split
  · rename_i h
    constructor
    · nofun
    · exact fun ⟨h3, h4, _⟩ => absurd h (not_or.mpr ⟨h3, h4⟩)
  · rename_i h
    obtain ⟨h3, h4⟩ := not_or.mp h
    exact ⟨fun e => ⟨h3, h4, Option.some.inj e⟩, fun ⟨_, _, e⟩ => congrArg some e⟩

/-- An instruction with an r/m32 destination stores for a memory operand only. -/
theorem storesAtMost_rmStore {m : ModRM} {c : Prop} [Decidable c] {s t u v w : State} {x y : Word} (ht : t.mem = s.mem)
    (hu : u.mem = s.mem) (hv : v.mem = s.mem.storeBelow s.cfg.memSize (operandAddress m s) x)
    (hw : w.mem = s.mem ∨ w.mem = s.mem.storeBelow s.cfg.memSize (operandAddress m s) y) :
    StoresAtMost (if m.mod = 3 ∨ m.rm = 4 then none else some (effectiveAddress m s.regs)) s
      (if m.mod = 3 then t else if m.rm = 4 then u else if c then v else w) := by
  by_cases h3 : m.mod = 3
  · rw [if_pos h3]
    exact .inl ht
  by_cases h4 : m.rm = 4
  · rw [if_neg h3, if_pos h4]
    exact .inl hu
  rw [if_neg h3, if_neg h4, if_neg (not_or.mpr ⟨h3, h4⟩)]
  exact storesAtMost_ite (.inr ⟨_, x, rfl, hv⟩) (hw.imp id fun hw => ⟨_, y, rfl, hw⟩)

theorem storesAtMost_modifyRm (m : ModRM) (op : Byte) (n : Nat) (g : Word → Word) (s : State) :
    StoresAtMost (if m.mod = 3 ∨ m.rm = 4 then none else some (effectiveAddress m s.regs)) s (modifyRm m op n g s) :=
  storesAtMost_rmStore (y := 0) rfl rfl rfl (.inl rfl)

theorem storesAtMost_pushAnd (op : Byte) (v p : Word) (s : State) :
    StoresAtMost (some (s.regs.esp - 4)) s (pushAnd op v p s) :=
  storesAtMost_ite (.inr ⟨_, v, rfl, rfl⟩) (.inr ⟨_, v, rfl, rfl⟩)

/-- What every instruction answers differs in memory by its one store at most. -/
theorem exec_storesAtMost (i : Instr) (s : State) : ∃ t, exec i s = .next t ∧ StoresAtMost (storeAddress i s) s t := by
  cases i with
  | addRm32R32 m => exact ⟨_, execAddRm32R32_run m s, storesAtMost_modifyRm ..⟩
  | addRm32Imm8 m imm => exact ⟨_, execAddRm32Imm8_run m imm s, storesAtMost_modifyRm ..⟩
  | subRm32Imm8 m imm => exact ⟨_, execSubRm32Imm8_run m imm s, storesAtMost_modifyRm ..⟩
  | incRm32 m => exact ⟨_, execIncRm32_run m s, storesAtMost_modifyRm ..⟩
  | movRm32R32 m => exact ⟨_, execMovRm32R32_run m s, storesAtMost_rmStore rfl rfl rfl (.inr rfl)⟩
  | movRm32Imm32 m imm => exact ⟨_, execMovRm32Imm32_run m imm s, storesAtMost_rmStore rfl rfl rfl (.inr rfl)⟩
  | movR32Rm32 m =>
    exact ⟨_, execMovR32Rm32_run m s,
      storesAtMost_ite (.inl rfl) (storesAtMost_ite (.inl rfl) (storesAtMost_ite (.inl rfl) (.inl rfl)))⟩
  | movR32Imm32 r imm => exact ⟨_, execMovR32Imm32_run r imm s, .inl rfl⟩
  | pushR32 r => exact ⟨_, execPushR32_run r s, storesAtMost_pushAnd ..⟩
  | pushImm32 imm => exact ⟨_, execPushImm32_run imm s, storesAtMost_pushAnd ..⟩
  | pushImm8 imm => exact ⟨_, execPushImm8_run imm s, storesAtMost_pushAnd ..⟩
  | callRel32 rel => exact ⟨_, execCallRel32_run rel s, storesAtMost_pushAnd ..⟩
  | popR32 r => exact ⟨_, execPopR32_run r s, storesAtMost_ite (.inl rfl) (.inl rfl)⟩
  | leave => exact ⟨_, execLeave_run s, storesAtMost_ite (.inl rfl) (.inl rfl)⟩
  | ret => exact ⟨_, execRet_run s, storesAtMost_ite (.inl rfl) (.inl rfl)⟩
  | jmpRel32 rel => exact ⟨_, execJmpRel32_run rel s, .inl rfl⟩
  | jmpRel8 rel => exact ⟨_, execJmpRel8_run rel s, .inl rfl⟩

/-- Settles O28: a store, whole or cut, changes only those of its four bytes that lie inside memory. -/
theorem onlyTheStoredBytesChange : Obligations.OnlyTheStoredBytesChange := by
  unfold Obligations.OnlyTheStoredBytesChange
  intro i s t hm h
  obtain ⟨u, hu, hstore⟩ := exec_storesAtMost i s
  cases h.symm.trans hu
  constructor
  · intro a ha b hb
    obtain hmem | ⟨a', v, ha', hmem⟩ := hstore
    · rw [hmem]
    · cases ha.symm.trans ha'
      exact (storedBelow_storeBelow hm hmem).2 b hb
  · intro hnone
    obtain hmem | ⟨a, v, ha, -⟩ := hstore
    · exact fun b => by rw [hmem]
    · exact absurd (hnone.symm.trans ha) nofun

/-! ### A store and the next fetch (R47) -/

/-- The state that an instruction whose store lies inside memory completes in. -/
structure Stored (s t : State) (a v : Word) : Prop where
  mem : t.mem = s.mem.storeBelow s.cfg.memSize a.toNat v
  cfg : t.cfg = s.cfg
  run : t.run = s.run

theorem stored_afterStore (a v p : Word) (s : State) : Stored s (afterStore a v p s) a v := ⟨rfl, rfl, rfl⟩

theorem stored_afterPush (v p : Word) (s : State) : Stored s { afterPush v s with pc := p } (s.regs.esp - 4) v :=
  ⟨rfl, rfl, rfl⟩

/-- The case of the r/m32 destinations: the operand is in memory and no SIB form. -/
theorem exec_stored_rm {i : Instr} {m : ModRM} {s : State} {a v x p : Word}
    (ha : (if m.mod = 3 ∨ m.rm = 4 then none else some (effectiveAddress m s.regs)) = some a)
    (hv : (if m.mod = 3 ∨ m.rm = 4 then none else some x) = some v) (hr : InRange s a.toNat)
    (h : m.mod ≠ 3 → m.rm ≠ 4 → InRange s (operandAddress m s) →
      exec i s = .next (afterStore (effectiveAddress m s.regs) x p s)) : ∃ t, exec i s = .next t ∧ Stored s t a v := by
  obtain ⟨h3, h4, rfl⟩ := rmStore_eq_some.mp ha
  obtain ⟨-, -, rfl⟩ := rmStore_eq_some.mp hv
  exact ⟨_, h h3 h4 hr, stored_afterStore ..⟩

/-- An instruction that stores completes when its four bytes lie inside memory, with the word of `storedValue` in them. -/
theorem exec_stored {i : Instr} {s : State} {a v : Word} (ha : storeAddress i s = some a) (hv : storedValue i s = some v)
    (hr : InRange s a.toNat) : ∃ t, exec i s = .next t ∧ Stored s t a v := by
  cases i with
  | addRm32R32 m => exact exec_stored_rm ha hv hr exec_addRm32R32_memory
  | addRm32Imm8 m imm => exact exec_stored_rm ha hv hr (exec_addRm32Imm8_memory imm)
  | subRm32Imm8 m imm => exact exec_stored_rm ha hv hr (exec_subRm32Imm8_memory imm)
  | incRm32 m => exact exec_stored_rm ha hv hr exec_incRm32_memory
  | movRm32R32 m => exact exec_stored_rm ha hv hr exec_movRm32R32_memory
  | movRm32Imm32 m imm => exact exec_stored_rm ha hv hr (exec_movRm32Imm32_memory imm)
  | pushR32 r => cases ha; cases hv; exact ⟨_, exec_pushR32_ok _ hr, stored_afterPush ..⟩
  | pushImm32 imm => cases ha; cases hv; exact ⟨_, exec_pushImm32_ok _ hr, stored_afterPush ..⟩
  | pushImm8 imm => cases ha; cases hv; exact ⟨_, exec_pushImm8_ok _ hr, stored_afterPush ..⟩
  | callRel32 rel => cases ha; cases hv; exact ⟨_, exec_callRel32_ok _ hr, stored_afterPush ..⟩
  | popR32 | leave | ret | movR32Rm32 | movR32Imm32 | jmpRel32 | jmpRel8 => cases ha

/-- The bytes of a word by number. -/
theorem bytesOf_getElem? {v : Word} {k : Nat} {b : Byte} (h : (bytesOf v)[k]? = some b) : k < 4 ∧ b = byteOf v k := by
  obtain ⟨hk, rfl⟩ := List.getElem?_eq_some_iff.mp h
  match k, hk with
  | 0, _ | 1, _ | 2, _ | 3, _ => exact ⟨by decide, rfl⟩

/-- The decoder reads a stored byte wherever it asks for one of the four addresses stored to. -/
theorem codeSource_byte_stored {s t : State} {a v : Word} {n k : Nat} (hm : s.mem.wf = true) (hr : InRange s a.toNat)
    (h : Stored s t a v) (hk : k < 4) (hn : (t.pc + BitVec.ofNat 32 n).toNat = a.toNat + k) :
    t.codeSource.byte n = .ok (byteOf v k) := by
  obtain ⟨hmem, hcfg, -⟩ := h
  have hin : a.toNat + k < t.cfg.memSize := by rw [hcfg]; exact Nat.lt_of_le_of_lt (by omega) hr
  show t.read8 (t.pc + BitVec.ofNat 32 n).toNat = _
  rw [hn, read8_ok hin, (storedWord_storeBelow hm hr hmem).1 k hk]

/-- The bytes of the word stored stand at `pc`, when `pc` is the address stored to. -/
theorem codeAt_stored {s t : State} {a v : Word} (hm : s.mem.wf = true) (hr : InRange s a.toNat) (h : Stored s t a v)
    (hpc : t.pc = a) : CodeAt t (bytesOf v) := by
  intro k b hb
  obtain ⟨hk, rfl⟩ := bytesOf_getElem? hb
  rw [hpc, h.cfg, (storedWord_storeBelow hm hr h.mem).1 k hk]
  exact ⟨Nat.lt_of_le_of_lt (by omega) hr, rfl⟩

/-- Settles O51: the store is in memory when the instruction has completed, and the next fetch reads memory as it is then. -/
theorem storeIsSeenByNextFetch : Obligations.StoreIsSeenByNextFetch := by
  unfold Obligations.StoreIsSeenByNextFetch
  intro i s a v hm hc hrun ha hv hr
  obtain ⟨t, ht, hs⟩ := exec_stored ha hv hr
  have htrun : t.run = .running := hs.run.trans hrun
  refine ⟨t, ht, htrun, fun hf hp => ?_, fun n k hk hn => codeSource_byte_stored hm hr hs hk hn, fun hpc j rest hd => ?_⟩
  · rw [step_of_exec hrun hf ht, haltCheck_away_from_sentinel (by rwa [hs.cfg])]
  · have hfetch : t.fetch = .ok j := fetch_of_codeAt (hs.cfg ▸ hc) (codeAt_stored hm hr hs hpc) hd
    exact ⟨hfetch, step_of_fetch htrun hfetch⟩

end Sys2Proof.Machine
end

section
/-! SUPPORT. The proofs of the statements about instructions that fail when they access an operand or the stack
(`60_exceptions.md` sections 1 and 4): the state each leaves, with the bytes stored before the failure. -/

namespace Sys2Proof.Machine

/-! ### SIB forms (R78, R123) -/

section
variable {m : ModRM} {s : State}

theorem modifyRm_sib (op : Byte) (n : Nat) (g : Word → Word) (h3 : m.mod ≠ 3) (h4 : m.rm = 4) :
    modifyRm m op n g s = (s.consume (1 + m.length)).takeFailure (.addressingNotImplemented m) s.pc (some op) := by
  rw [modifyRm, if_neg h3, if_pos h4]

/-- The instructions whose `pc` is past the ModRM sequence when an SIB form fails. -/
theorem exec_sib {i : Instr} (h3 : m.mod ≠ 3) (h4 : m.rm = 4)
    (hi : (∃ imm, i = .addRm32Imm8 m imm ∨ i = .subRm32Imm8 m imm) ∨
      i = .addRm32R32 m ∨ i = .movRm32R32 m ∨ i = .movR32Rm32 m ∨ i = .incRm32 m) :
    exec i s =
      .next ((s.consume (1 + m.length)).takeFailure (.addressingNotImplemented m) s.pc (some i.opcode)) := by
  obtain ⟨imm, rfl | rfl⟩ | rfl | rfl | rfl | rfl := hi
  · rw [exec, execAddRm32Imm8_run, modifyRm_sib _ _ _ h3 h4, Instr.opcode]
  · rw [exec, execSubRm32Imm8_run, modifyRm_sib _ _ _ h3 h4, Instr.opcode]
  · rw [exec, execAddRm32R32_run, modifyRm_sib _ _ _ h3 h4, Instr.opcode]
  · rw [exec, execMovRm32R32_run, if_neg h3, if_pos h4, Instr.opcode]
  · rw [exec, execMovR32Rm32_run, if_neg h3, if_pos h4, Instr.opcode]
  · rw [exec, execIncRm32_run, modifyRm_sib _ _ _ h3 h4, Instr.opcode]

/-- 0xC7 is past its immediate too. -/
theorem exec_movRm32Imm32_sib (imm : Word) (h3 : m.mod ≠ 3) (h4 : m.rm = 4) :
    exec (.movRm32Imm32 m imm) s =
      .next ((s.consume (5 + m.length)).takeFailure (.addressingNotImplemented m) s.pc (some 0xC7)) := by
  rw [exec, execMovRm32Imm32_run, if_neg h3, if_pos h4]

end

/-- Settles O31: the 24 ModRM bytes are counted, and the seven instructions fail before the operand is accessed. -/
theorem sibFormsFail : Obligations.SibFormsFail := by
  unfold Obligations.SibFormsFail
  refine ⟨by decide +kernel, fun m s i n h3 h4 _ hi => ?_⟩
  obtain ⟨hi, rfl⟩ | ⟨⟨imm, rfl⟩, rfl⟩ := hi
  · exact ⟨_, exec_sib h3 h4 hi, ⟨rfl, rfl, rfl⟩, rfl, rfl, rfl⟩
  · exact ⟨_, exec_movRm32Imm32_sib imm h3 h4, ⟨rfl, rfl, rfl⟩, rfl, rfl, rfl⟩

/-! ### Operands that leave memory (R85, R86, R88, R90 to R93) -/

section
variable {m : ModRM} {s : State}

theorem modifyRm_outside (op : Byte) (n : Nat) (g : Word → Word) (h3 : m.mod ≠ 3) (h4 : m.rm ≠ 4)
    (hr : ¬InRange s (operandAddress m s)) :
    modifyRm m op n g s = memoryFailure (operandAddress m s) op s (s.consume (1 + m.length)) := by
  rw [modifyRm, if_neg h3, if_neg h4, if_neg hr]

/-- The instructions that read their operand first fail at the read. -/
theorem exec_read_outside {i : Instr} (h3 : m.mod ≠ 3) (h4 : m.rm ≠ 4) (hr : ¬InRange s (operandAddress m s))
    (hi : (∃ imm, i = .addRm32Imm8 m imm ∨ i = .subRm32Imm8 m imm) ∨
      i = .addRm32R32 m ∨ i = .movR32Rm32 m ∨ i = .incRm32 m) :
    exec i s = .next (memoryFailure (operandAddress m s) i.opcode s (s.consume (1 + m.length))) := by
  obtain ⟨imm, rfl | rfl⟩ | rfl | rfl | rfl := hi
  · rw [exec, execAddRm32Imm8_run, modifyRm_outside _ _ _ h3 h4 hr, Instr.opcode]
  · rw [exec, execSubRm32Imm8_run, modifyRm_outside _ _ _ h3 h4 hr, Instr.opcode]
  · rw [exec, execAddRm32R32_run, modifyRm_outside _ _ _ h3 h4 hr, Instr.opcode]
  · rw [exec, execMovR32Rm32_run, if_neg h3, if_neg h4, if_neg hr, Instr.opcode]
  · rw [exec, execIncRm32_run, modifyRm_outside _ _ _ h3 h4 hr, Instr.opcode]

theorem exec_movRm32R32_outside (h3 : m.mod ≠ 3) (h4 : m.rm ≠ 4) (hr : ¬InRange s (operandAddress m s)) :
    exec (.movRm32R32 m) s = .next (memoryFailure (operandAddress m s) 0x89 s
      (afterStore (effectiveAddress m s.regs) (s.regs.get (regReg m)) (s.pc + BitVec.ofNat 32 (1 + m.length)) s)) := by
  rw [exec, execMovRm32R32_run, if_neg h3, if_neg h4, if_neg hr]
  rfl

theorem exec_movRm32Imm32_outside (imm : Word) (h3 : m.mod ≠ 3) (h4 : m.rm ≠ 4) (hr : ¬InRange s (operandAddress m s)) :
    exec (.movRm32Imm32 m imm) s = .next (memoryFailure (operandAddress m s) 0xC7 s
      (afterStore (effectiveAddress m s.regs) imm (s.pc + BitVec.ofNat 32 (5 + m.length)) s)) := by
  rw [exec, execMovRm32Imm32_run, if_neg h3, if_neg h4, if_neg hr]
  rfl

end

/-- Settles O32: the operand is read before anything is written. -/
theorem operandReadOutOfRangeFails : Obligations.OperandReadOutOfRangeFails := by
  unfold Obligations.OperandReadOutOfRangeFails
  intro m s i h3 h4 _ hi hr
  exact ⟨_, exec_read_outside h3 h4 (Nat.not_lt.mpr hr) hi, ⟨rfl, rfl, rfl⟩, rfl, rfl, rfl⟩

/-- Settles O33: the store keeps the bytes written before the one that fails. -/
theorem operandWriteOutOfRangeFails : Obligations.OperandWriteOutOfRangeFails := by
  unfold Obligations.OperandWriteOutOfRangeFails
  intro m s hm h3 h4 _ hr
  have hout : ¬InRange s (operandAddress m s) := Nat.not_lt.mpr hr
  refine ⟨⟨_, exec_movRm32R32_outside h3 h4 hout, ?_⟩, fun imm => ⟨_, exec_movRm32Imm32_outside imm h3 h4 hout, ?_⟩⟩
  · exact ⟨⟨rfl, rfl, rfl⟩, rfl, rfl, storedBelow_storeBelow hm rfl⟩
  · exact ⟨⟨rfl, rfl, rfl⟩, rfl, rfl, storedBelow_storeBelow hm rfl⟩

/-! ### Stack slots that leave memory (R95, R96, R101) -/

theorem pushAnd_outside {s : State} (op : Byte) (v p : Word) (h : ¬InRange s (s.regs.esp - 4).toNat) :
    pushAnd op v p s = memoryFailure (s.regs.esp - 4).toNat op s (afterPush v s) := by rw [pushAnd, if_neg h, afterPush]

/-- The four instructions that push fail alike. -/
theorem exec_push_outside {s : State} {i : Instr} {v : Word} (h : ¬InRange s (s.regs.esp - 4).toNat)
    (hi : (∃ r, i = .pushR32 r ∧ v = s.regs.get r) ∨ i = .pushImm32 v ∨
      (∃ imm, i = .pushImm8 imm ∧ v = BitVec.ofNat 32 imm.toNat) ∨ (∃ rel, i = .callRel32 rel ∧ v = s.pc + 5)) :
    exec i s = .next (memoryFailure (s.regs.esp - 4).toNat i.opcode s (afterPush v s)) := by
  obtain ⟨r, rfl, rfl⟩ | rfl | ⟨imm, rfl, rfl⟩ | ⟨rel, rfl, rfl⟩ := hi
  · rw [exec, execPushR32_run, pushAnd_outside _ _ _ h]
  · rw [exec, execPushImm32_run, pushAnd_outside _ _ _ h, Instr.opcode]
  · rw [exec, execPushImm8_run, pushAnd_outside _ _ _ h, Instr.opcode, zext8to32_eq_ofNat]
  · rw [exec, execCallRel32_run, pushAnd_outside _ _ _ h, Instr.opcode]

/-- Settles O34: the push keeps its decrement and the bytes stored before the one that fails. -/
theorem pushOutOfRangeFails : Obligations.PushOutOfRangeFails := by
  unfold Obligations.PushOutOfRangeFails
  intro s i v hm hr hi
  exact ⟨_, exec_push_outside (Nat.not_lt.mpr hr) hi, ⟨rfl, rfl, rfl⟩, rfl, rfl, afterPush_sameRegsBut v s,
    storedBelow_storeBelow hm rfl⟩

theorem exec_pop_outside {s : State} {i : Instr} (h : ¬InRange s s.regs.esp.toNat) (hi : (∃ r, i = .popR32 r) ∨ i = .ret) :
    exec i s = .next (memoryFailure s.regs.esp.toNat i.opcode s s) := by
  obtain ⟨r, rfl⟩ | rfl := hi
  · rw [exec, execPopR32_run, if_neg h]
  · rw [exec, execRet_run, if_neg h, Instr.opcode]

theorem exec_leave_outside {s : State} (h : ¬InRange s s.regs.ebp.toNat) :
    exec .leave s =
      .next (memoryFailure s.regs.ebp.toNat 0xC9 s { s with regs := s.regs.set .esp s.regs.ebp }) := by
  rw [exec, execLeave_run, if_neg h]

/-- Settles O35: the slot is read before ESP is incremented, and LEAVE has copied EBP by then. -/
theorem popOutOfRangeFails : Obligations.PopOutOfRangeFails := by
  unfold Obligations.PopOutOfRangeFails
  constructor
  · intro s i hr hi
    exact ⟨_, exec_pop_outside (Nat.not_lt.mpr hr) hi, ⟨rfl, rfl, rfl⟩, rfl, rfl, rfl⟩
  · intro s hr
    exact ⟨_, exec_leave_outside (Nat.not_lt.mpr hr), ⟨rfl, rfl, rfl⟩, rfl, rfl, sameRegsBut_of_regs_set rfl, rfl⟩

end Sys2Proof.Machine
end

section
/-! SUPPORT. The proofs of the statements about instructions that cannot be fetched whole, and about undefined sub-codes
(`60_exceptions.md` sections 1, 3 and 4): which read fails first, and how far `pc` has moved by then. -/

namespace Sys2Proof

/-! ### The reads of a ModRM sequence that fail (R70) -/

section
variable {ε : Type} {src : ByteSource ε} {k : Nat} {e : ε}

theorem parseModRM_byte_error (h : src.byte k = .error e) : parseModRM src k = .error (e, k) := by
  rw [parseModRM, h]
  rfl

theorem parseModRM_sib_error {b : Byte} (hb : src.byte k = .ok b) (hs : sibFollows (modField b) (rmField b) = true)
    (h : src.byte (k + 1) = .error e) : parseModRM src k = .error (e, k + 1) := by
  have hsib : parseSib src (modField b) (rmField b) (k + 1) = .error (e, k + 1) := by
    rw [parseSib, if_pos hs, h]
    rfl
  simp only [parseModRM, hb, failAt, Except.mapError, bind, Except.bind, hsib]

theorem parseModRM_disp_error {b : Byte} {sib : Option Byte} {k1 : Nat} {f : ε × Nat} (hb : src.byte k = .ok b)
    (hs : parseSib src (modField b) (rmField b) (k + 1) = .ok (sib, k1))
    (hd : parseDisp src (modField b) (rmField b) k1 = .error f) : parseModRM src k = .error f := by
  simp only [parseModRM, hb, failAt, Except.mapError, bind, Except.bind, hs, hd]

theorem parseDisp_disp8_error {mod : BitVec 2} {rm : BitVec 3} (hk : dispKind mod rm = .disp8)
    (h : src.byte k = .error e) : parseDisp src mod rm k = .error (e, k) := by
  rw [parseDisp, hk, h]
  rfl

theorem parseDisp_disp32_error {mod : BitVec 2} {rm : BitVec 3} (hk : dispKind mod rm = .disp32)
    (h : src.word k = .error e) : parseDisp src mod rm k = .error (e, k) := by
  rw [parseDisp, hk, h]
  rfl

end

/-! ### What a failed read of an operand makes of the instruction -/

section
variable {ε : Type} {src : ByteSource ε} {op : Byte} {m : ModRM} {k : Nat} {e : ε}

theorem operandModRM_of_parse_error {f : ε × Nat} (h : parseModRM src 1 = .error f) :
    operandModRM src op = .error (.unreadable op f.1 f.2) := by
  rw [operandModRM, h]
  rfl

theorem decodeGroup83_undefined (hm : parseModRM src 1 = .ok (m, k)) (h0 : m.reg ≠ 0) (h5 : m.reg ≠ 5) :
    decodeGroup83 src op = .error (.subOpcodeNotImplemented op m.reg k) := by
  refine bind_eq_error.mpr (.inr ⟨_, operandModRM_eq_ok.mpr hm, ?_⟩)
  dsimp only
  rw [if_neg h0, if_neg h5]
  rfl

theorem decodeGroupFF_undefined (hm : parseModRM src 1 = .ok (m, k)) (h0 : m.reg ≠ 0) :
    decodeGroupFF src op = .error (.subOpcodeNotImplemented op m.reg k) := by
  refine bind_eq_error.mpr (.inr ⟨_, operandModRM_eq_ok.mpr hm, ?_⟩)
  dsimp only
  rw [if_neg h0]
  rfl

theorem decodeGroup83_imm8_error (hm : parseModRM src 1 = .ok (m, k)) (hr : m.reg = 0 ∨ m.reg = 5)
    (hb : src.byte k = .error e) : decodeGroup83 src op = .error (.imm8Unreadable op m e k) := by
  refine bind_eq_error.mpr (.inr ⟨_, operandModRM_eq_ok.mpr hm, ?_⟩)
  dsimp only
  rw [hb]
  obtain h0 | h5 := hr
  · rw [if_pos h0]
    rfl
  · rw [if_neg (by simp [h5]), if_pos h5]
    rfl

theorem decodeMovRm32Imm32_imm32_error (hm : parseModRM src 1 = .ok (m, k)) (hw : src.word k = .error e) :
    decodeMovRm32Imm32 src op = .error (.unreadable op e k) := by
  refine bind_eq_error.mpr (.inr ⟨_, operandModRM_eq_ok.mpr hm, ?_⟩)
  dsimp only
  rw [hw]
  rfl

end

/-! ### The opcodes by the operand that follows them (R51) -/

theorem dispatch_movR32Imm32 {op : Byte} (h : 0xB8 ≤ op.toNat ∧ op.toNat ≤ 0xBF) :
    dispatch op = some (.movR32Imm32 (opcodeReg op)) := by
  revert op; decide

/-- The opcodes that an imm32 or rel32 follows. -/
theorem dispatch_operandWord {op : Byte}
    (h : op = 0x68 ∨ (0xB8 ≤ op.toNat ∧ op.toNat ≤ 0xBF) ∨ op = 0xE8 ∨ op = 0xE9) :
    ∃ e f, dispatch op = some e ∧
      ∀ {ε : Type} (src : ByteSource ε), decodeEntry src op e = (operandWord src op).map f := by
  obtain rfl | h | rfl | rfl := h
  · exact ⟨.pushImm32, .pushImm32, rfl, fun _ => rfl⟩
  · exact ⟨_, _, dispatch_movR32Imm32 h, fun _ => rfl⟩
  · exact ⟨.callRel32, .callRel32, rfl, fun _ => rfl⟩
  · exact ⟨.jmpRel32, .jmpRel32, rfl, fun _ => rfl⟩

/-- The opcodes that an imm8 or rel8 follows. -/
theorem dispatch_operandByte {op : Byte} (h : op = 0x6A ∨ op = 0xEB) :
    ∃ e f, dispatch op = some e ∧
      ∀ {ε : Type} (src : ByteSource ε), decodeEntry src op e = (operandByte src op).map f := by
  obtain rfl | rfl := h
  · exact ⟨.pushImm8, .pushImm8, rfl, fun _ => rfl⟩
  · exact ⟨.jmpRel8, .jmpRel8, rfl, fun _ => rfl⟩

/-- The opcodes that a ModRM sequence follows: where it cannot be read, the instruction cannot. -/
theorem dispatch_operandModRM {op : Byte}
    (h : op = 0x01 ∨ op = 0x83 ∨ op = 0x89 ∨ op = 0x8B ∨ op = 0xC7 ∨ op = 0xFF) :
    ∃ e, dispatch op = some e ∧
      ∀ {ε : Type} {src : ByteSource ε} {f : DecodeFailure ε}, operandModRM src op = .error f →
        decodeEntry src op e = .error f := by
  obtain rfl | rfl | rfl | rfl | rfl | rfl := h
  · exact ⟨.addRm32R32, rfl, Machine.map_eq_error.mpr⟩
  · exact ⟨.group83, rfl, fun h => bind_eq_error.mpr (.inl h)⟩
  · exact ⟨.movRm32R32, rfl, Machine.map_eq_error.mpr⟩
  · exact ⟨.movR32Rm32, rfl, Machine.map_eq_error.mpr⟩
  · exact ⟨.movRm32Imm32, rfl, fun h => bind_eq_error.mpr (.inl h)⟩
  · exact ⟨.groupFF, rfl, fun h => bind_eq_error.mpr (.inl h)⟩

end Sys2Proof

namespace Sys2Proof.Machine

/-! ### Code bytes outside memory (R32, R33, D7) -/

section
variable {s : State} {k : Nat}

theorem codeSource_byte_ok (h : (s.pc + BitVec.ofNat 32 k).toNat < s.cfg.memSize) :
    s.codeSource.byte k = .ok (s.mem.read (s.pc + BitVec.ofNat 32 k).toNat) := read8_ok h

theorem codeSource_byte_outside (h : s.cfg.memSize ≤ (s.pc + BitVec.ofNat 32 k).toNat) :
    s.codeSource.byte k = .error (.memoryOutOfRange (s.pc + BitVec.ofNat 32 k).toNat) := read8_error h

theorem codeSource_word_outside (h : s.cfg.memSize ≤ (s.pc + BitVec.ofNat 32 k).toNat + 3) :
    s.codeSource.word k = .error (.memoryOutOfRange (max (s.pc + BitVec.ofNat 32 k).toNat s.cfg.memSize)) :=
  if_neg (Nat.not_lt.mpr h)

end

/-! ### The step on a fetch that fails after the opcode (R130) -/

theorem fetch_of_dispatch {s : State} {e : Entry} (hp : s.pc.toNat < s.cfg.memSize)
    (hd : dispatch (s.mem.read s.pc.toNat) = some e) :
    s.fetch = decodeEntry s.codeSource (s.mem.read s.pc.toNat) e := by rw [fetch_of_opcode hp, hd]

/-- A part of the instruction cannot be read: `pc` is past the parts before it, and nothing else has changed. -/
theorem step_of_unreadable {s : State} {op : Byte} {e : Failure} {n : Nat} (hr : s.run = .running)
    (hf : s.fetch = .error (.unreadable op e n)) :
    ∃ t, step s = .next t ∧ FailedWith s t e (some op) ∧ t.pc = s.pc + BitVec.ofNat 32 n ∧ t.regs = s.regs ∧
      t.mem = s.mem :=
  ⟨_, step_of_fetch_error hr hf, ⟨rfl, rfl, rfl⟩, rfl, rfl, rfl⟩

/-- Settles O37: the operand is read at the opcode's address plus 1, with nothing consumed. -/
theorem truncatedImmediateFails : Obligations.TruncatedImmediateFails := by
  unfold Obligations.TruncatedImmediateFails
  intro s hr hp hop
  have hf : s.fetch = .error (.unreadable (s.mem.read s.pc.toNat)
      (.memoryOutOfRange (max (s.pc + 1).toNat s.cfg.memSize)) 0) := by
    obtain ⟨hword, hout⟩ | ⟨hbyte, hout⟩ := hop
    · obtain ⟨e, f, hd, he⟩ := dispatch_operandWord hword
      rw [fetch_of_dispatch hp hd, he, map_eq_error, operandWord, codeSource_word_outside hout]
      rfl
    · obtain ⟨e, f, hd, he⟩ := dispatch_operandByte hbyte
      rw [fetch_of_dispatch hp hd, he, map_eq_error, operandByte, codeSource_byte_outside hout, Nat.max_eq_left hout]
      rfl
  obtain ⟨t, ht, hfail, hpc, hframe⟩ := step_of_unreadable hr hf
  exact ⟨t, ht, hfail, hpc.trans (BitVec.add_zero _), hframe⟩

/-! ### A ModRM sequence that leaves memory (R70) -/

/-- Wherever the ModRM sequence fails, all six opcodes fail there. -/
theorem step_of_modRM_error {s : State} {f : Failure × Nat} (hr : s.run = .running) (hp : s.pc.toNat < s.cfg.memSize)
    (hop : s.mem.read s.pc.toNat = 0x01 ∨ s.mem.read s.pc.toNat = 0x83 ∨ s.mem.read s.pc.toNat = 0x89 ∨
      s.mem.read s.pc.toNat = 0x8B ∨ s.mem.read s.pc.toNat = 0xC7 ∨ s.mem.read s.pc.toNat = 0xFF)
    (h : parseModRM s.codeSource 1 = .error f) :
    ∃ t, step s = .next t ∧ FailedWith s t f.1 (some (s.mem.read s.pc.toNat)) ∧
      t.pc = s.pc + BitVec.ofNat 32 f.2 ∧ t.regs = s.regs ∧ t.mem = s.mem := by
  obtain ⟨e, hd, he⟩ := dispatch_operandModRM hop
  refine step_of_unreadable hr ?_
  rw [fetch_of_dispatch hp hd]
  exact he (operandModRM_of_parse_error h)

/-- A displacement that leaves memory. -/
theorem parseDisp_outside {s : State} {mod : BitVec 2} {rm : BitVec 3} {n : Nat}
    (h : dispKind mod rm = .disp8 ∧ s.cfg.memSize ≤ (s.pc + BitVec.ofNat 32 n).toNat ∨
      dispKind mod rm = .disp32 ∧ s.cfg.memSize ≤ (s.pc + BitVec.ofNat 32 n).toNat + 3) :
    parseDisp s.codeSource mod rm n =
      .error (.memoryOutOfRange (max (s.pc + BitVec.ofNat 32 n).toNat s.cfg.memSize), n) := by
  obtain ⟨hk, hout⟩ | ⟨hk, hout⟩ := h
  · rw [parseDisp_disp8_error hk (codeSource_byte_outside hout), Nat.max_eq_left hout]
  · rw [parseDisp_disp32_error hk (codeSource_word_outside hout)]

/-- Settles O38: the ModRM byte, the SIB byte and the displacement are read in this order, each after `pc` has passed the
parts before it. -/
theorem truncatedModRMFails : Obligations.TruncatedModRMFails := by
  unfold Obligations.TruncatedModRMFails
  rintro s _ hr hp rfl hop
  refine ⟨fun hout => ?_, ?_⟩
  · exact step_of_modRM_error hr hp hop (parseModRM_byte_error (codeSource_byte_outside hout))
  rintro _ hin rfl
  have hb := codeSource_byte_ok (k := 1) hin
  refine ⟨fun hs hout => ?_, fun n hn hout => ?_⟩
  · exact step_of_modRM_error hr hp hop (parseModRM_sib_error hb hs (codeSource_byte_outside hout))
  · obtain ⟨sib, hsib⟩ : ∃ sib, parseSib s.codeSource (modField (s.mem.read (s.pc + 1).toNat))
        (rmField (s.mem.read (s.pc + 1).toNat)) 2 = .ok (sib, n) := by
      obtain ⟨hs, hin2, rfl⟩ | ⟨hs, rfl⟩ := hn
      · exact ⟨_, parseSib_present hs (codeSource_byte_ok hin2)⟩
      · exact ⟨_, parseSib_absent (ne_true_of_eq_false hs)⟩
    exact step_of_modRM_error hr hp hop (parseModRM_disp_error hb hsib (parseDisp_outside hout))

/-! ### After a ModRM sequence that was read whole -/

section
variable {s : State} {op : Byte} {bs : List Byte}

theorem opcode_of_codeAt (h : CodeAt s (op :: bs)) : s.pc.toNat < s.cfg.memSize ∧ s.mem.read s.pc.toNat = op := h 0 op rfl

theorem fetch_of_codeAt_dispatch {e : Entry} (h : CodeAt s (op :: bs)) (hd : dispatch op = some e) :
    s.fetch = decodeEntry s.codeSource op e := by
  obtain ⟨hp, rfl⟩ := opcode_of_codeAt h
  exact fetch_of_dispatch hp hd

/-- A ModRM sequence that stands after the opcode is parsed from memory as it is from the list. -/
theorem parseModRM_of_codeAt {m : ModRM} {n : Nat} (hv : s.cfg.Valid) (h : CodeAt s (op :: bs))
    (hm : parseModRM (ByteSource.ofList bs) 0 = .ok (m, n)) : parseModRM s.codeSource 1 = .ok (m, 1 + n) := by
  refine parseModRM_serves (codeAt_serves hv h) ?_
  obtain ⟨hwf, hn, hd⟩ := parseModRM_ofList.mp hm
  refine parseModRM_ofList.mpr ⟨hwf, by omega, ?_⟩
  rw [Nat.add_comm 1 n]
  exact hd

end

/-- Settles O30: the sub-code is examined with `pc` past the ModRM sequence and nothing else done. -/
theorem undefinedSubOpcodeFails : Obligations.UndefinedSubOpcodeFails := by
  unfold Obligations.UndefinedSubOpcodeFails
  intro s op bs m n hr hv hcode hm hop
  have hparse := parseModRM_of_codeAt hv hcode hm
  have hf : s.fetch = .error (.subOpcodeNotImplemented op m.reg (1 + n)) := by
    obtain ⟨rfl, h0, h5⟩ | ⟨rfl, h0⟩ := hop
    · rw [fetch_of_codeAt_dispatch hcode (e := .group83) rfl]
      exact decodeGroup83_undefined hparse h0 h5
    · rw [fetch_of_codeAt_dispatch hcode (e := .groupFF) rfl]
      exact decodeGroupFF_undefined hparse h0
  exact ⟨_, step_of_fetch_error hr hf, ⟨rfl, rfl, rfl⟩, rfl, rfl, rfl⟩

/-- What is reported where the imm8 of 0x83 fails with `e`: the failure of the operand `m`, if it has one (D12). -/
def imm8Failure (m : ModRM) (e : Failure) (s : State) : Failure :=
  if m.mod = 3 then e
  else if m.rm = 4 then .addressingNotImplemented m
  else if InRange s (operandAddress m s) then e
  else .memoryOutOfRange (max (operandAddress m s) s.cfg.memSize)

section
variable {m : ModRM} {s : State}

theorem imm8Failure_sib (e : Failure) (h3 : m.mod ≠ 3) (h4 : m.rm = 4) :
    imm8Failure m e s = .addressingNotImplemented m := by rw [imm8Failure, if_neg h3, if_pos h4]

theorem imm8Failure_outside (e : Failure) (h3 : m.mod ≠ 3) (h4 : m.rm ≠ 4) (hr : ¬InRange s (operandAddress m s)) :
    imm8Failure m e s = .memoryOutOfRange (max (operandAddress m s) s.cfg.memSize) := by
  rw [imm8Failure, if_neg h3, if_neg h4, if_neg hr]

theorem imm8Failure_readable (e : Failure) (h : m.mod = 3 ∨ (m.rm ≠ 4 ∧ InRange s (operandAddress m s))) :
    imm8Failure m e s = e := by
  by_cases h3 : m.mod = 3
  · rw [imm8Failure, if_pos h3]
  · obtain ⟨h4, hr⟩ := h.resolve_left h3
    rw [imm8Failure, if_neg h3, if_neg h4, if_pos hr]

end

theorem fetchFailed_imm8Unreadable (s : State) (op : Byte) (m : ModRM) (e : Failure) (n : Nat) :
    s.fetchFailed (.imm8Unreadable op m e n) = (s.consume n).takeFailure (imm8Failure m e s) s.pc (some op) := by
  have hread := getRm32_run m (s.consume n)
  rw [State.fetchFailed]
  by_cases h3 : m.mod = 3
  · rw [hread, if_pos h3, imm8Failure_readable e (.inl h3)]
  by_cases h4 : m.rm = 4
  · rw [hread, if_neg h3, if_pos h4, imm8Failure_sib e h3 h4]
  by_cases hr : InRange (s.consume n) (operandAddress m (s.consume n))
  · rw [hread, if_neg h3, if_neg h4, if_pos hr, imm8Failure_readable (s := s) e (.inr ⟨h4, hr⟩)]
  · rw [hread, if_neg h3, if_neg h4, if_neg hr, imm8Failure_outside (s := s) e h3 h4 hr]
    rfl

/-- Settles O39: the operand of 0x83 is tried before its imm8, and 0xC7 fetches its immediate before it looks at its
operand. -/
theorem truncatedImmediateAfterModRMFails : Obligations.TruncatedImmediateAfterModRMFails := by
  unfold Obligations.TruncatedImmediateAfterModRMFails
  intro s op bs m n hr hv hcode hm
  have hparse := parseModRM_of_codeAt hv hcode hm
  constructor
  · rintro rfl hreg hout
    have hf : s.fetch = .error (.imm8Unreadable 0x83 m
        (.memoryOutOfRange (s.pc + BitVec.ofNat 32 (1 + n)).toNat) (1 + n)) := by
      rw [fetch_of_codeAt_dispatch hcode (e := .group83) rfl]
      exact decodeGroup83_imm8_error hparse hreg (codeSource_byte_outside hout)
    have hst := step_of_fetch_error hr hf
    rw [fetchFailed_imm8Unreadable] at hst
    refine ⟨_, hst, rfl, rfl, rfl, ?_, ?_, ?_⟩
    · rintro ⟨h3, h4⟩
      rw [imm8Failure_sib _ h3 h4]
      exact ⟨rfl, rfl, rfl⟩
    · rintro ⟨h3, h4, hea⟩
      rw [imm8Failure_outside _ h3 h4 (Nat.not_lt.mpr hea)]
      exact ⟨rfl, rfl, rfl⟩
    · intro h
      rw [imm8Failure_readable _ h]
      exact ⟨rfl, rfl, rfl⟩
  · rintro rfl hout
    refine step_of_unreadable hr ?_
    rw [fetch_of_codeAt_dispatch hcode (e := .movRm32Imm32) rfl]
    exact decodeMovRm32Imm32_imm32_error hparse (codeSource_word_outside hout)

end Sys2Proof.Machine
end
